-- ==== Sys2Proof/Word.lean ====
section
/-! DEFINITION. The word type and the register index (spec/00_scope.md R5, R7; spec/10_state.md R20). -/

namespace Sys2Proof

/-- "Word: 16-bit unsigned integer; the unit of memory and register storage" (00_scope.md R7). -/
abbrev Word := BitVec 16

/-- One raw console character or one byte of a packed Word: 8 bits (43_trap_system.md R191, R192). -/
abbrev Byte := BitVec 8

/-- "8 general-purpose Word registers, indexed 0–7" (10_state.md R20). -/
abbrev RegId := Fin 8

end Sys2Proof
end

