-- ==== Sys2Proof/Config.lean ====
section
/-! DEFINITION. Error kinds and the OPEN parameters of spec/00_scope.md R6. The parameters are plain data:
`Machine.State` carries one `Config` that no step changes, so a statement about every state is a statement about
every value of the parameters (log 1). -/

namespace Sys2Proof

/-- The seven error kinds the engine raises (60_exceptions.md R220, kinds 5 to 11 of the source's list). -/
inductive ErrorKind where
  /-- R221: below `START`, or the fetched Word is the below-sentinel. -/
  | addressTooLow
  /-- R222: above `MEMORY_USER_MAX`, or the fetched Word is the above-sentinel. -/
  | addressTooHigh
  /-- R223: one of the six padding checks of 30_encoding.md R95 failed. -/
  | malformedPadding
  /-- R224: the one opcode value with no handler. -/
  | malformedInstr
  /-- R225: a trap vector outside the six. -/
  | malformedTrap
  /-- R226: RTI. -/
  | unauthorizedInstr
  /-- R227: a character outside 7-bit ASCII. -/
  | unimplemented
  deriving DecidableEq, Repr

/-- The four loader errors (60_exceptions.md R235, kinds 1 to 4 of the source's list): the engine never starts. -/
inductive LoadError where
  | fileOpen
  | fileRead
  | fileTooShort
  | fileTooLong
  deriving DecidableEq, Repr

/-- `ERROR_CODE` (00_scope.md R6, 60_exceptions.md R233): one natural number per error kind. -/
structure ErrorCodes where
  fileOpen          : Nat
  fileRead          : Nat
  fileTooShort      : Nat
  fileTooLong       : Nat
  addressTooLow     : Nat
  addressTooHigh    : Nat
  malformedPadding  : Nat
  malformedInstr    : Nat
  malformedTrap     : Nat
  unauthorizedInstr : Nat
  unimplemented     : Nat
  deriving DecidableEq, Repr

/-- The status code of an engine error kind. -/
def ErrorCodes.engine (c : ErrorCodes) : ErrorKind → Nat
  | .addressTooLow     => c.addressTooLow
  | .addressTooHigh    => c.addressTooHigh
  | .malformedPadding  => c.malformedPadding
  | .malformedInstr    => c.malformedInstr
  | .malformedTrap     => c.malformedTrap
  | .unauthorizedInstr => c.unauthorizedInstr
  | .unimplemented     => c.unimplemented

/-- The status code of a loader error. -/
def ErrorCodes.loader (c : ErrorCodes) : LoadError → Nat
  | .fileOpen     => c.fileOpen
  | .fileRead     => c.fileRead
  | .fileTooShort => c.fileTooShort
  | .fileTooLong  => c.fileTooLong

/-- Every code, in the order of the source's list. -/
def ErrorCodes.all (c : ErrorCodes) : List Nat :=
  [c.fileOpen, c.fileRead, c.fileTooShort, c.fileTooLong, c.addressTooLow, c.addressTooHigh,
   c.malformedPadding, c.malformedInstr, c.malformedTrap, c.unauthorizedInstr, c.unimplemented]

/-- R6's constraint on `ERROR_CODE`: "non-zero and distinct per kind; success is 0". -/
abbrev ErrorCodes.WellFormed (c : ErrorCodes) : Prop := c.all.Nodup ∧ 0 ∉ c.all

/-- The OPEN parameters of 00_scope.md R6 other than the loader's `START`, `END` and `IMAGE`. -/
structure Config where
  /-- `MEMORY_USER_MAX`: the highest address a reference may touch. -/
  memoryUserMax : Word
  /-- `SENTINEL_BELOW`: the fill Word of every address below `START`. -/
  sentinelBelow : Word
  /-- `SENTINEL_ABOVE`: the fill Word of every address at or above `END`. -/
  sentinelAbove : Word
  /-- `ERROR_CODE`. -/
  errorCode     : ErrorCodes
  /-- `IN_PROMPT`: "every element below 0x80", which the element type says. -/
  inPrompt      : List (BitVec 7)
  /-- `SP_INIT`. -/
  spInit        : Word
  /-- `FP_INIT`. -/
  fpInit        : Word
  deriving DecidableEq, Repr

/-- R6's constraints on the parameters: the two sentinels differ, the error codes are non-zero and distinct. -/
abbrev Config.WellFormed (c : Config) : Prop :=
  c.sentinelBelow ≠ c.sentinelAbove ∧ c.errorCode.WellFormed

/-- The parameter values that `State.reset` takes. PRESUMED: `memoryUserMax` (the LC-3 convention, log 2).
DESIGN CHOICE: the sentinels (log 3), `spInit` and `fpInit` (log 4), the prompt (log 5), the codes (log 6).
Unsafe where a claim rests on one of them; no obligation does. -/
def Config.conventional : Config where
  memoryUserMax := 0xFDFF#16
  sentinelBelow := 0xDEAD#16
  sentinelAbove := 0xDADA#16
  errorCode :=
    { fileOpen := 1, fileRead := 2, fileTooShort := 3, fileTooLong := 4, addressTooLow := 5, addressTooHigh := 6,
      malformedPadding := 7, malformedInstr := 8, malformedTrap := 9, unauthorizedInstr := 10, unimplemented := 11 }
  inPrompt := [0x3E#7, 0x20#7]
  spInit := 0x3000#16
  fpInit := 0x3000#16

end Sys2Proof
end

