-- ==== Sys2Proof/Syntax.lean ====
section
/-! DEFINITION. The instructions: one constructor per row of spec/opcode_table.json. Operand names are the spec's
(30_encoding.md R83, R84). Bits the engine ignores (R96) are no operands. -/

namespace Sys2Proof

/-- The 25 instruction forms of spec/opcode_table.json. -/
inductive Instr where
  /-- ADD, register mode (40_operate.md R121). -/
  | addReg (dr sr1 sr2 : RegId)
  /-- ADD, immediate mode (R122). -/
  | addImm (dr sr1 : RegId) (imm5 : BitVec 5)
  /-- AND, register mode (R123). -/
  | andReg (dr sr1 sr2 : RegId)
  /-- AND, immediate mode (R124). -/
  | andImm (dr sr1 : RegId) (imm5 : BitVec 5)
  /-- NOT (R125). -/
  | not (dr sr : RegId)
  /-- BR; `mask` is `ir[11:9]` in the order n, z, p (41_control.md R140). -/
  | br (mask : BitVec 3) (offset9 : BitVec 9)
  /-- JMP; RET is `JMP R7` (R142). -/
  | jmp (baseR : RegId)
  /-- JSR (R143). -/
  | jsr (offset11 : BitVec 11)
  /-- JSRR (R144). -/
  | jsrr (baseR : RegId)
  /-- LD (42_load_store.md R161). -/
  | ld (dr : RegId) (offset9 : BitVec 9)
  /-- ST (R162). -/
  | st (sr : RegId) (offset9 : BitVec 9)
  /-- LDI (R165). -/
  | ldi (dr : RegId) (offset9 : BitVec 9)
  /-- STI, this hardware's (R166). -/
  | sti (sr : RegId) (offset9 : BitVec 9)
  /-- LEA (R167). -/
  | lea (dr : RegId) (offset9 : BitVec 9)
  /-- LDR (R163). -/
  | ldr (dr baseR : RegId) (offset6 : BitVec 6)
  /-- STR (R164). -/
  | str (sr baseR : RegId) (offset6 : BitVec 6)
  /-- TRAP, the generic row: a vector that is none of the six (43_trap_system.md R194, R201). -/
  | trap (trapvect8 : BitVec 8)
  /-- GETC, vector 0x20 (R195). -/
  | getc
  /-- OUT, vector 0x21 (R196). -/
  | out
  /-- PUTS, vector 0x22 (R197). -/
  | puts
  /-- IN, vector 0x23 (R198). -/
  | in_
  /-- PUTSP, vector 0x24 (R199). -/
  | putsp
  /-- HALT, vector 0x25 (R200). -/
  | halt
  /-- RTI (R202). -/
  | rti
  /-- The unassigned opcode 1101 (R203). -/
  | reserved1101
  deriving DecidableEq, Repr

end Sys2Proof
end

