-- ==== Sys2Proof/WellFormed.lean ====
section
/-! DEFINITION. Which instructions are well formed. Field widths are in the operand types; the one check left is that the
generic TRAP row stands only for the vectors that have no row of their own (30_encoding.md R92, R107). -/

namespace Sys2Proof

/-- The six valid trap vectors, "an 8-bit closed enumeration with exactly six valid members" (30_encoding.md R92). -/
def knownTrapVectors : List (BitVec 8) := [0x20#8, 0x21#8, 0x22#8, 0x23#8, 0x24#8, 0x25#8]

/-- Well-formed instructions: `trap v` names a vector outside the six; every other form is well formed as typed. -/
def Instr.wellFormed : Instr → Bool
  | .addReg _ _ _ => true
  | .addImm _ _ _ => true
  | .andReg _ _ _ => true
  | .andImm _ _ _ => true
  | .not _ _      => true
  | .br _ _       => true
  | .jmp _        => true
  | .jsr _        => true
  | .jsrr _       => true
  | .ld _ _       => true
  | .st _ _       => true
  | .ldi _ _      => true
  | .sti _ _      => true
  | .lea _ _      => true
  | .ldr _ _ _    => true
  | .str _ _ _    => true
  | .trap v       => !knownTrapVectors.contains v
  | .getc         => true
  | .out          => true
  | .puts         => true
  | .in_          => true
  | .putsp        => true
  | .halt         => true
  | .rti          => true
  | .reserved1101 => true

/-- `Instr.wellFormed` as a proposition. -/
abbrev Instr.WellFormed (i : Instr) : Prop := i.wellFormed = true

end Sys2Proof
end

