-- ==== Sys2Proof/Decode.lean ====
section
/-! DEFINITION. The decoder, total on every Word, rejecting a bad padding field by name (30_encoding.md R81 to R102), and the
encoder. Opcode numbers, mode-bit polarity, five trap vectors and three field positions are the spec's own additions from
general knowledge (R83, R85, R90, R92; log 13). The sentinel guard of R102 precedes decoding and stands in
`Machine.fetch`. -/

namespace Sys2Proof

/-- `ir[hi:lo]` with its low bit and its width (R82). -/
def field (ir : Word) (lo width : Nat) : BitVec width := ir.extractLsb' lo width

/-- The register a 3-bit field selects "by its unsigned value" (R83). -/
def regField (ir : Word) (lo : Nat) : RegId := (field ir lo 3).toFin

/-- The trap a vector names; a vector outside the six stays the generic row (R92, R194). -/
def decodeTrap (v : BitVec 8) : Instr :=
  if v = 0x20#8 then .getc
  else if v = 0x21#8 then .out
  else if v = 0x22#8 then .puts
  else if v = 0x23#8 then .in_
  else if v = 0x24#8 then .putsp
  else if v = 0x25#8 then .halt
  else .trap v

/-- The instruction when its padding holds the required constant, else `MalformedPadding` (R95). -/
def padded (good : Bool) (i : Instr) : Except ErrorKind Instr :=
  if good then .ok i else .error .malformedPadding

/-- Decoding (R90, R102). Opcode 0001 and 0101: `ir[5]` selects immediate mode, register mode has padding `ir[4:3]`.
Opcode 0100: `ir[11]` selects JSR, JSRR has padding `ir[10:9]`. The default is the unassigned opcode 1101. -/
def decode (ir : Word) : Except ErrorKind Instr :=
  match (field ir 12 4).toNat with
  | 0x0 => .ok (.br (field ir 9 3) (field ir 0 9))
  | 0x1 =>
    if field ir 5 1 = 1#1 then .ok (.addImm (regField ir 9) (regField ir 6) (field ir 0 5))
    else padded (field ir 3 2 = 0#2) (.addReg (regField ir 9) (regField ir 6) (regField ir 0))
  | 0x2 => .ok (.ld (regField ir 9) (field ir 0 9))
  | 0x3 => .ok (.st (regField ir 9) (field ir 0 9))
  | 0x4 =>
    if field ir 11 1 = 1#1 then .ok (.jsr (field ir 0 11))
    else padded (field ir 9 2 = 0#2) (.jsrr (regField ir 6))
  | 0x5 =>
    if field ir 5 1 = 1#1 then .ok (.andImm (regField ir 9) (regField ir 6) (field ir 0 5))
    else padded (field ir 3 2 = 0#2) (.andReg (regField ir 9) (regField ir 6) (regField ir 0))
  | 0x6 => .ok (.ldr (regField ir 9) (regField ir 6) (field ir 0 6))
  | 0x7 => .ok (.str (regField ir 9) (regField ir 6) (field ir 0 6))
  | 0x8 => .ok .rti
  | 0x9 => padded (field ir 0 5 = 0b11111#5) (.not (regField ir 9) (regField ir 6))
  | 0xA => .ok (.ldi (regField ir 9) (field ir 0 9))
  | 0xB => .ok (.sti (regField ir 9) (field ir 0 9))
  | 0xC => padded (field ir 9 3 = 0#3 && field ir 0 6 = 0#6) (.jmp (regField ir 6))
  | 0xE => .ok (.lea (regField ir 9) (field ir 0 9))
  | 0xF => padded (field ir 8 4 = 0#4) (decodeTrap (field ir 0 8))
  | _   => .ok .reserved1101

/-- A register number as a 3-bit field. -/
def regBits (r : RegId) : BitVec 3 := BitVec.ofFin r

/-- The formats OP_REG, OP_IMM, NOT, JMP, JSRR and BASE_OFF of R81: opcode, `[11:9]`, `[8:6]`, `[5:0]`. -/
def threeFields (op : BitVec 4) (high mid : BitVec 3) (low : BitVec 6) : Word := op ++ high ++ mid ++ low

/-- The formats BR and PC_OFF of R81: opcode, `[11:9]`, `[8:0]`. -/
def twoFields (op : BitVec 4) (high : BitVec 3) (low : BitVec 9) : Word := op ++ high ++ low

/-- The format JSR of R81: opcode, `[11]`, `[10:0]`. -/
def jsrFields (op : BitVec 4) (mode : BitVec 1) (low : BitVec 11) : Word := op ++ mode ++ low

/-- The format TRAP of R81: opcode, `[11:8]`, `[7:0]`. -/
def trapFields (op padding : BitVec 4) (low : BitVec 8) : Word := op ++ padding ++ low

/-- The low six bits of a register-mode operate Word: mode bit 0, padding 00, SR2 (R81). -/
def registerMode (sr2 : RegId) : BitVec 6 := 0b0#1 ++ 0b00#2 ++ regBits sr2

/-- The low six bits of an immediate-mode operate Word: mode bit 1, imm5 (R81). -/
def immediateMode (imm5 : BitVec 5) : BitVec 6 := 0b1#1 ++ imm5

/-- The Word of an instruction (R81, R90, R92). Ignored bits (R96) get what an assembler emits: a one in NOT (R105), zeros
elsewhere. -/
def encode : Instr → Word
  | .addReg dr sr1 sr2    => threeFields 0b0001#4 (regBits dr) (regBits sr1) (registerMode sr2)
  | .addImm dr sr1 imm5   => threeFields 0b0001#4 (regBits dr) (regBits sr1) (immediateMode imm5)
  | .andReg dr sr1 sr2    => threeFields 0b0101#4 (regBits dr) (regBits sr1) (registerMode sr2)
  | .andImm dr sr1 imm5   => threeFields 0b0101#4 (regBits dr) (regBits sr1) (immediateMode imm5)
  | .not dr sr            => threeFields 0b1001#4 (regBits dr) (regBits sr) 0b111111#6
  | .br mask offset9      => twoFields 0b0000#4 mask offset9
  | .jmp baseR            => threeFields 0b1100#4 0b000#3 (regBits baseR) 0b000000#6
  | .jsr offset11         => jsrFields 0b0100#4 0b1#1 offset11
  | .jsrr baseR           => threeFields 0b0100#4 0b000#3 (regBits baseR) 0b000000#6
  | .ld dr offset9        => twoFields 0b0010#4 (regBits dr) offset9
  | .st sr offset9        => twoFields 0b0011#4 (regBits sr) offset9
  | .ldi dr offset9       => twoFields 0b1010#4 (regBits dr) offset9
  | .sti sr offset9       => twoFields 0b1011#4 (regBits sr) offset9
  | .lea dr offset9       => twoFields 0b1110#4 (regBits dr) offset9
  | .ldr dr baseR offset6 => threeFields 0b0110#4 (regBits dr) (regBits baseR) offset6
  | .str sr baseR offset6 => threeFields 0b0111#4 (regBits sr) (regBits baseR) offset6
  | .trap v               => trapFields 0b1111#4 0b0000#4 v
  | .getc                 => trapFields 0b1111#4 0b0000#4 0x20#8
  | .out                  => trapFields 0b1111#4 0b0000#4 0x21#8
  | .puts                 => trapFields 0b1111#4 0b0000#4 0x22#8
  | .in_                  => trapFields 0b1111#4 0b0000#4 0x23#8
  | .putsp                => trapFields 0b1111#4 0b0000#4 0x24#8
  | .halt                 => trapFields 0b1111#4 0b0000#4 0x25#8
  | .rti                  => threeFields 0b1000#4 0b000#3 0b000#3 0b000000#6
  | .reserved1101         => threeFields 0b1101#4 0b000#3 0b000#3 0b000000#6

/-- The bits of a Word that the engine ignores in this instruction (R96). -/
def ignoredBits : Instr → Word
  | .addReg _ _ _ => 0x0000#16
  | .addImm _ _ _ => 0x0000#16
  | .andReg _ _ _ => 0x0000#16
  | .andImm _ _ _ => 0x0000#16
  | .not _ _      => 0x0020#16
  | .br _ _       => 0x0000#16
  | .jmp _        => 0x0000#16
  | .jsr _        => 0x0000#16
  | .jsrr _       => 0x003F#16
  | .ld _ _       => 0x0000#16
  | .st _ _       => 0x0000#16
  | .ldi _ _      => 0x0000#16
  | .sti _ _      => 0x0000#16
  | .lea _ _      => 0x0000#16
  | .ldr _ _ _    => 0x0000#16
  | .str _ _ _    => 0x0000#16
  | .trap _       => 0x0000#16
  | .getc         => 0x0000#16
  | .out          => 0x0000#16
  | .puts         => 0x0000#16
  | .in_          => 0x0000#16
  | .putsp        => 0x0000#16
  | .halt         => 0x0000#16
  | .rti          => 0x0FFF#16
  | .reserved1101 => 0x0FFF#16

/-- A row of spec/opcode_table.json: a Word `w` is a valid encoding of the row when `w & mask = pattern` (R107). -/
structure TableRow where
  mask    : Word
  pattern : Word
  deriving DecidableEq, Repr

/-- The `mask` and `match` columns of the instruction's row of spec/opcode_table.json, as the table prints them. -/
def tableRow : Instr → TableRow
  | .addReg _ _ _ => { mask := 0xF038#16, pattern := 0x1000#16 }
  | .addImm _ _ _ => { mask := 0xF020#16, pattern := 0x1020#16 }
  | .andReg _ _ _ => { mask := 0xF038#16, pattern := 0x5000#16 }
  | .andImm _ _ _ => { mask := 0xF020#16, pattern := 0x5020#16 }
  | .not _ _      => { mask := 0xF01F#16, pattern := 0x901F#16 }
  | .br _ _       => { mask := 0xF000#16, pattern := 0x0000#16 }
  | .jmp _        => { mask := 0xFE3F#16, pattern := 0xC000#16 }
  | .jsr _        => { mask := 0xF800#16, pattern := 0x4800#16 }
  | .jsrr _       => { mask := 0xFE00#16, pattern := 0x4000#16 }
  | .ld _ _       => { mask := 0xF000#16, pattern := 0x2000#16 }
  | .st _ _       => { mask := 0xF000#16, pattern := 0x3000#16 }
  | .ldi _ _      => { mask := 0xF000#16, pattern := 0xA000#16 }
  | .sti _ _      => { mask := 0xF000#16, pattern := 0xB000#16 }
  | .lea _ _      => { mask := 0xF000#16, pattern := 0xE000#16 }
  | .ldr _ _ _    => { mask := 0xF000#16, pattern := 0x6000#16 }
  | .str _ _ _    => { mask := 0xF000#16, pattern := 0x7000#16 }
  | .trap _       => { mask := 0xFF00#16, pattern := 0xF000#16 }
  | .getc         => { mask := 0xFFFF#16, pattern := 0xF020#16 }
  | .out          => { mask := 0xFFFF#16, pattern := 0xF021#16 }
  | .puts         => { mask := 0xFFFF#16, pattern := 0xF022#16 }
  | .in_          => { mask := 0xFFFF#16, pattern := 0xF023#16 }
  | .putsp        => { mask := 0xFFFF#16, pattern := 0xF024#16 }
  | .halt         => { mask := 0xFFFF#16, pattern := 0xF025#16 }
  | .rti          => { mask := 0xF000#16, pattern := 0x8000#16 }
  | .reserved1101 => { mask := 0xF000#16, pattern := 0xD000#16 }

/-- What the decoder reads from an instruction whose bits are `w`, of `nbits` bits in the table's numbering. Every
instruction is one Word (R80), so a longer one, or one with a bit set above `nbits`, is none (log 26). -/
def decodeTableWord (nbits w : Nat) : Option Instr :=
  if nbits ≤ 16 ∧ w < 2 ^ nbits then
    match decode (BitVec.ofNat 16 w) with
    | .ok i => some i
    | .error _ => none
  else none

end Sys2Proof
end

