-- ==== Sys2Proof/Machine/Memory.lean ====
section
/-! DEFINITION. Memory as plain data: "a fixed-size array of 65536 Words, word-addressed" (10_state.md R31), held as the list
of the cells that differ from the reset fill. A cell is a Word because a Word is the smallest thing an address names: "there
is no byte addressing" (R31) and "a Word is never split" (20_memory.md R51) (log 8). -/

namespace Sys2Proof.Machine

/-- One Word of memory at an address. -/
abbrev Cell := Nat × Word

/-- The size of the address space, "address range 0x0000–0xFFFF" (00_scope.md R5). -/
abbrev addressSpace : Nat := 65536

/-- What an unlisted address reads as: the reset fill outside the loaded region, `SENTINEL_BELOW` below `START` and
`SENTINEL_ABOVE` elsewhere (10_state.md R32). Image Words are listed where they differ from it. -/
def unlistedWord (start below above : Word) (a : Nat) : Word :=
  if a < start.toNat then below else above

/-- The Word at address `a`. -/
def readCell (fill : Nat → Word) : List Cell → Nat → Word
  | [], a => fill a
  | (b, w) :: rest, a => if a = b then w else readCell fill rest a

/-- Puts a new cell at its place in a rising list. -/
def insertCell (c : Cell) : List Cell → List Cell
  | [] => [c]
  | d :: rest => if c.1 < d.1 then c :: d :: rest else d :: insertCell c rest

/-- Memory with the Word at address `a` replaced by `v`, in canonical form: a Word equal to the fill is not listed. -/
def writeCell (fill : Nat → Word) (mem : List Cell) (a : Nat) (v : Word) : List Cell :=
  let others := mem.filter (fun c => c.1 ≠ a)
  if v = fill a then others else insertCell (a, v) others

/-- The canonical form: addresses inside the address space and strictly rising, no cell equal to the fill. -/
abbrev MemoryWf (fill : Nat → Word) (mem : List Cell) : Prop :=
  mem.Pairwise (fun c d => c.1 < d.1) ∧ ∀ c ∈ mem, c.1 < addressSpace ∧ c.2 ≠ fill c.1

/-- The cells of a payload loaded verbatim from address `a` on (70_reset_and_hazards.md R264), less those equal to the
fill. -/
def imageCells (fill : Nat → Word) : Nat → List Word → List Cell
  | _, [] => []
  | a, w :: rest =>
    if w = fill a then imageCells fill (a + 1) rest else (a, w) :: imageCells fill (a + 1) rest

end Sys2Proof.Machine
end

