-- ==== Sys2Proof/Machine/State.lean ====
section
/-! DEFINITION. The whole state of the engine (10_state.md R38), the reasons a step has no successor, and reset. -/

namespace Sys2Proof.Machine

/-- The run state (00_scope.md R11, 10_state.md R36). -/
inductive RunState where
  | running
  | halted
  | faulted (kind : ErrorKind)
  deriving DecidableEq, Repr

/-- An instruction that a transition leaves unfinished (the MODEL's own, log 11 and log 12). GETC and IN wait in
`ConsoleRead()`, "held inside the step" (43_trap_system.md R191). PUTS and PUTSP have visited as many cells as memory holds
and go on at the address named; no run comes to that (log 12). -/
inductive Progress where
  | getc
  | in_
  | puts  (address : Word)
  | putsp (address : Word)
  deriving DecidableEq, Repr

/-- Why `step` has no next state. Every engine error is a NEXT state whose `run` is `faulted kind` (60_exceptions.md R228);
these faults say only that such a terminal state "has no successor" (R234). -/
inductive Fault where
  /-- `step` raises it when `run` is `halted`: the run ended normally and "takes no further step" (43_trap_system.md R200).
  Safe: the machine has no step there either. -/
  | halted
  /-- `step` raises it when `run` is `faulted kind`: the run ended in that error, "a terminal state has no successor"
  (60_exceptions.md R234). Safe: the machine has no step there either. -/
  | faulted (kind : ErrorKind)
  deriving DecidableEq, Repr

/-- Why an instruction has no meaning. -/
inductive Refusal where
  /-- Raised by an arm of `exec` whose instruction has no meaning yet. Safe. No arm is left so. -/
  | notModelled (mnemonic : String)
  deriving DecidableEq, Repr

/-- The state of the machine (10_state.md R38), the parameters (00_scope.md R6), and two fields of the model's own. -/
structure State where
  /-- R0 to R7 (R20). -/
  regs         : Vector Word 8
  /-- The address of the next instruction to fetch; one past the running instruction while it runs (R23). -/
  pc           : Word
  /-- The register file's `stack_pointer` field, inert (R26). -/
  stackPointer : Word
  /-- The register file's `frame_pointer` field, inert (R26). -/
  framePointer : Word
  /-- The condition field: bit 2 = N, bit 1 = Z, bit 0 = P (R27). -/
  cond         : BitVec 3
  /-- The cells of memory that differ from the reset fill (R31, R32). -/
  mem          : List Cell
  /-- `START` (R33). -/
  start        : Word
  /-- `END`, 0 to 65536 (R33). -/
  loadEnd      : Nat
  /-- The console newline flag (R34). -/
  atLineStart  : Bool
  /-- The characters printed so far, oldest first (R35). -/
  out          : List Byte
  /-- The run state (R36). -/
  run          : RunState
  /-- The MODEL's own: the console's coming answers to `ConsoleRead()`, oldest first; any values (43 R191, log 10). -/
  input        : List Byte
  /-- The MODEL's own: an instruction left unfinished (log 11). -/
  inProgress   : Option Progress
  /-- The OPEN parameters, constant (00_scope.md R6, log 1). -/
  config       : Config
  deriving DecidableEq, Repr

/-- What an unlisted address reads as in this state. -/
def State.fill (s : State) : Nat → Word :=
  unlistedWord s.start s.config.sentinelBelow s.config.sentinelAbove

/-- The state when the first step begins, for every parameter value and every load (10_state.md R38,
70_reset_and_hazards.md R261): registers and `cond` zero, memory as R32, `pc` at `START`, the newline flag true, `out` empty
(decisions D10, D11, D12, D20, D21: log 14 to log 17). The loader hands over an image with
`image.length ≤ 65536 - start` (R265). -/
def State.boot (config : Config) (start : Word) (image : List Word) : State where
  regs         := Vector.replicate 8 0x0000#16
  pc           := start
  stackPointer := config.spInit
  framePointer := config.fpInit
  cond         := 0b000#3
  mem          := imageCells (unlistedWord start config.sentinelBelow config.sentinelAbove) start.toNat image
  start        := start
  loadEnd      := start.toNat + image.length
  atLineStart  := true
  out          := []
  run          := .running
  input        := []
  inProgress   := none
  config       := config

/-- The machine right after reset with nothing loaded: the payload of zero Words (70_reset_and_hazards.md R265) at the
origin 0x3000 (PRESUMED, log 2), the parameters of `Config.conventional`. A program comes to run by a load from outside the
machine (log 7). -/
def State.reset : State := State.boot Config.conventional 0x3000#16 []

end Sys2Proof.Machine
end

