-- ==== Sys2Proof/Machine/Ops.lean ====
section
/-! DEFINITION. The named operations over registers, memory and run state that the meanings share: register access,
`CheckAddr`, `MemRead`, `MemWrite`, `raise`, the fetch, and the status code of a run. -/

namespace Sys2Proof.Machine

/-! ### Updates of one field -/

/-- `x[r]` (10_state.md R20). -/
def State.reg (s : State) (r : RegId) : Word := s.regs[r]

/-- `x[r] <- v` (10_state.md R20); no register is hardwired. -/
def State.setReg (s : State) (r : RegId) (v : Word) : State := { s with regs := s.regs.set r v }

/-- `pc <- target`; the target is not checked here (10_state.md R24). -/
def State.setPc (s : State) (target : Word) : State := { s with pc := target }

/-- `M[a]`, with no check (10_state.md R31). -/
def State.word (s : State) (a : Word) : Word := readCell s.fill s.mem a.toNat

/-- `M[a] <- v`, with no check (10_state.md R31). -/
def State.setWord (s : State) (a v : Word) : State := { s with mem := writeCell s.fill s.mem a.toNat v }

/-- The run state written. -/
def State.setRun (s : State) (r : RunState) : State := { s with run := r }

/-- The console's coming answers written (log 10). -/
def State.setInput (s : State) (cs : List Byte) : State := { s with input := cs }

/-- The unfinished instruction written (log 11). -/
def State.setProgress (s : State) (p : Option Progress) : State := { s with inProgress := p }

/-! ### Errors -/

/-- `raise kind` (60_exceptions.md R228): `run <- Faulted(kind)`, "nothing else is written". There is no handler and no
return (R234). -/
def raise (kind : ErrorKind) (s : State) : Host.Outcome State Fault Refusal := .next (s.setRun (.faulted kind))

/-- A rule in the middle of its statements: it goes on, or it has raised with every earlier write done (00_scope.md R10). -/
inductive Flow where
  | go    (s : State)
  | raise (kind : ErrorKind) (s : State)
  deriving DecidableEq, Repr

/-- The next statement of a rule: nothing after a `raise` executes (00_scope.md R10). -/
def Flow.andThen (f : Flow) (next : State → Flow) : Flow :=
  match f with
  | .go s => next s
  | .raise kind s => .raise kind s

/-- The end of a rule. -/
def Flow.finish (f : Flow) : Host.Outcome State Fault Refusal :=
  match f with
  | .go s => .next s
  | .raise kind s => Machine.raise kind s

/-! ### Memory access -/

/-- `CheckAddr(a)` (20_memory.md R54): `START <= a <= MEMORY_USER_MAX`, unsigned, the low test first (log 22). -/
def checkAddr (a : Word) (s : State) : Option ErrorKind :=
  if a < s.start then some .addressTooLow
  else if s.config.memoryUserMax < a then some .addressTooHigh
  else none

/-- `MemRead(a, 16)` (20_memory.md R55); the Word read is not compared with the sentinels. -/
def memRead (a : Word) (s : State) : Except ErrorKind Word :=
  match checkAddr a s with
  | some kind => .error kind
  | none => .ok (s.word a)

/-- `MemWrite(a, 16, v)` (20_memory.md R56); a failed check leaves memory unchanged. -/
def memWrite (a v : Word) (s : State) : Flow :=
  match checkAddr a s with
  | some kind => .raise kind s
  | none => .go (s.setWord a v)

/-! ### The fetch -/

/-- The sentinel guard on the fetched Word (20_memory.md R57): it compares values, not addresses. -/
def sentinelGuard (ir : Word) (s : State) : Option ErrorKind :=
  if ir = s.config.sentinelBelow then some .addressTooLow
  else if ir = s.config.sentinelAbove then some .addressTooHigh
  else none

/-- What the fetch gives: an instruction Word with `pc` incremented, or an error. -/
inductive Fetched where
  | word  (ir : Word) (s : State)
  | raise (kind : ErrorKind) (s : State)
  deriving DecidableEq, Repr

/-- Steps 1 to 4 of the instruction cycle (30_encoding.md R100): check `pc`, fetch, increment, sentinel guard. -/
def fetch (s : State) : Fetched :=
  match checkAddr s.pc s with
  | some kind => .raise kind s
  | none =>
    match sentinelGuard (s.word s.pc) s with
    | some kind => .raise kind (s.setPc (s.pc + 1))
    | none => .word (s.word s.pc) (s.setPc (s.pc + 1))

/-! ### The end of a run -/

/-- The status code of a run that has ended: 0 after HALT, `ERROR_CODE(kind)` after a fault (60_exceptions.md R233); a
running engine has none. -/
def State.statusCode (s : State) : Option Nat :=
  match s.run with
  | .running => none
  | .halted => some 0
  | .faulted kind => some (s.config.errorCode.engine kind)

end Sys2Proof.Machine
end

