-- ==== Sys2Proof/Machine/Operands.lean ====
section
/-! DEFINITION. Operand forms: sign extension, and the effective addresses of 42_load_store.md R160. -/

namespace Sys2Proof.Machine

/-- `sext_N(v)` (00_scope.md R9), N one of 5, 6, 9, 11. -/
def sext {n : Nat} (v : BitVec n) : Word := v.signExtend 16

/-- `zext_N(v)` (00_scope.md R9). -/
def zext {n : Nat} (v : BitVec n) : Word := v.setWidth 16

/-- The PC-relative address: the incremented `pc` plus the sign-extended offset, modulo 65536 (42_load_store.md R160). -/
def pcRelative {n : Nat} (s : State) (offset : BitVec n) : Word := s.pc + sext offset

/-- The base-plus-offset address, modulo 65536 (42_load_store.md R160). -/
def baseOffset (s : State) (baseR : RegId) (offset6 : BitVec 6) : Word := s.reg baseR + sext offset6

end Sys2Proof.Machine
end

