-- ==== Sys2Proof/Machine/Control.lean ====
section
/-! DEFINITION. The meanings of BR, JMP, JSR and JSRR (41_control.md). `pc` is already incremented; targets are not checked
here (R145). -/

namespace Sys2Proof.Machine

/-- BR (41_control.md R140): taken when the mask and `cond` share a bit. -/
def execBr (mask : BitVec 3) (offset9 : BitVec 9) (s : State) : Host.Outcome State Fault Refusal :=
  .next (if mask &&& s.cond ≠ 0#3 then s.setPc (pcRelative s offset9) else s)

/-- JMP (41_control.md R142). -/
def execJmp (baseR : RegId) (s : State) : Host.Outcome State Fault Refusal :=
  .next (s.setPc (s.reg baseR))

/-- JSR (41_control.md R143): the return address into R7, no flags. -/
def execJsr (offset11 : BitVec 11) (s : State) : Host.Outcome State Fault Refusal :=
  .next ((s.setReg 7 s.pc).setPc (pcRelative s offset11))

/-- JSRR (41_control.md R144): R7 is "saved first", so the base register is read after the write to R7. -/
def execJsrr (baseR : RegId) (s : State) : Host.Outcome State Fault Refusal :=
  let saved := s.setReg 7 s.pc
  .next (saved.setPc (saved.reg baseR))

end Sys2Proof.Machine
end

