-- ==== Sys2Proof/Machine/Flags.lean ====
section
/-! DEFINITION. The condition-code update (40_operate.md R120). There is no other flag (R126). -/

namespace Sys2Proof.Machine

/-- The value of `cond` for a result: "Negative iff bit 15 of result is 1; Zero iff result == 0; Positive iff neither"
(40_operate.md R120). -/
def condOf (v : Word) : BitVec 3 :=
  if v.msb then 0b100#3 else if v = 0x0000#16 then 0b010#3 else 0b001#3

/-- `setcc(v)`, "overwriting all three unconditionally" (40_operate.md R120). -/
def State.setcc (s : State) (v : Word) : State := { s with cond := condOf v }

end Sys2Proof.Machine
end

