-- ==== Sys2Proof/Machine/Operate.lean ====
section
/-! DEFINITION. The meanings of ADD, AND and NOT (40_operate.md). Sources are read before the destination is written. -/

namespace Sys2Proof.Machine

/-- A result into its register with `setcc` from the same Word: the end of ADD, AND, NOT, LD, LDR and LDI (10_state.md
R28). -/
def writeResult (dr : RegId) (v : Word) (s : State) : State := (s.setReg dr v).setcc v

/-- ADD, register mode (40_operate.md R121). -/
def execAddReg (dr sr1 sr2 : RegId) (s : State) : Host.Outcome State Fault Refusal :=
  .next (writeResult dr (s.reg sr1 + s.reg sr2) s)

/-- ADD, immediate mode (40_operate.md R122). -/
def execAddImm (dr sr1 : RegId) (imm5 : BitVec 5) (s : State) : Host.Outcome State Fault Refusal :=
  .next (writeResult dr (s.reg sr1 + sext imm5) s)

/-- AND, register mode (40_operate.md R123). -/
def execAndReg (dr sr1 sr2 : RegId) (s : State) : Host.Outcome State Fault Refusal :=
  .next (writeResult dr (s.reg sr1 &&& s.reg sr2) s)

/-- AND, immediate mode (40_operate.md R124): the immediate is sign-extended before the AND. -/
def execAndImm (dr sr1 : RegId) (imm5 : BitVec 5) (s : State) : Host.Outcome State Fault Refusal :=
  .next (writeResult dr (s.reg sr1 &&& sext imm5) s)

/-- NOT (40_operate.md R125). -/
def execNot (dr sr : RegId) (s : State) : Host.Outcome State Fault Refusal :=
  .next (writeResult dr (~~~ s.reg sr) s)

end Sys2Proof.Machine
end

