-- ==== Sys2Proof/Machine/LoadStore.lean ====
section
/-! DEFINITION. The meanings of LD, ST, LDR, STR, LDI, STI and LEA (42_load_store.md). -/

namespace Sys2Proof.Machine

/-- A checked read into a register with `setcc`: the end of LD, LDR and LDI (42_load_store.md R161, R163, R165). -/
def loadInto (dr : RegId) (a : Word) (s : State) : Host.Outcome State Fault Refusal :=
  match memRead a s with
  | .error kind => raise kind s
  | .ok v => .next (writeResult dr v s)

/-- LD (42_load_store.md R161). -/
def execLd (dr : RegId) (offset9 : BitVec 9) (s : State) : Host.Outcome State Fault Refusal :=
  loadInto dr (pcRelative s offset9) s

/-- ST (42_load_store.md R162). -/
def execSt (sr : RegId) (offset9 : BitVec 9) (s : State) : Host.Outcome State Fault Refusal :=
  (memWrite (pcRelative s offset9) (s.reg sr) s).finish

/-- LDR (42_load_store.md R163). -/
def execLdr (dr baseR : RegId) (offset6 : BitVec 6) (s : State) : Host.Outcome State Fault Refusal :=
  loadInto dr (baseOffset s baseR offset6) s

/-- STR (42_load_store.md R164). -/
def execStr (sr baseR : RegId) (offset6 : BitVec 6) (s : State) : Host.Outcome State Fault Refusal :=
  (memWrite (baseOffset s baseR offset6) (s.reg sr) s).finish

/-- LDI (42_load_store.md R165): two checked reads, the pointer and the datum. -/
def execLdi (dr : RegId) (offset9 : BitVec 9) (s : State) : Host.Outcome State Fault Refusal :=
  match memRead (pcRelative s offset9) s with
  | .error kind => raise kind s
  | .ok p => loadInto dr p s

/-- STI, this hardware's (42_load_store.md R166): the Word that the register points to is copied to the PC-relative cell;
both checks, the pointer's first, come before the write. -/
def execSti (sr : RegId) (offset9 : BitVec 9) (s : State) : Host.Outcome State Fault Refusal :=
  match memRead (s.reg sr) s with
  | .error kind => raise kind s
  | .ok v => (memWrite (pcRelative s offset9) v s).finish

/-- LEA (42_load_store.md R167): no memory access, no check, no flags. -/
def execLea (dr : RegId) (offset9 : BitVec 9) (s : State) : Host.Outcome State Fault Refusal :=
  .next (s.setReg dr (pcRelative s offset9))

end Sys2Proof.Machine
end

