-- ==== Sys2Proof/Machine/Console.lean ====
section
/-! DEFINITION. The console primitives the traps share (43_trap_system.md section 1) and the loops of the string traps. -/

namespace Sys2Proof.Machine

/-- The environment's side of `ConsoleRead()`: more characters to answer with, after those already there (log 10). -/
def State.supply (s : State) (cs : List Byte) : State := s.setInput (s.input ++ cs)

/-- The two writes of `PrintChar`: append to `out`, update the newline flag (43_trap_system.md R192). -/
def State.emit (s : State) (c : Byte) : State := { s with out := s.out ++ [c], atLineStart := c == 0x0A#8 }

/-- A carriage return is shown as a line feed (43_trap_system.md R192, log 18). -/
def shown (c : Byte) : Byte := if c = 0x0D#8 then 0x0A#8 else c

/-- `PrintChar(c)` (43_trap_system.md R192): a character above 0x7F raises `Unimplemented`. -/
def printChar (c : Byte) (s : State) : Flow :=
  if 0x7F#8 < c then .raise .unimplemented s else .go (s.emit (shown c))

/-- `EnsureLineStart()` (43_trap_system.md R204). -/
def ensureLineStart (s : State) : Flow := if s.atLineStart then .go s else printChar 0x0A#8 s

/-- `PrintChar` of each character in turn: IN's prompt (43_trap_system.md R198). -/
def printAll : List (BitVec 7) → State → Flow
  | [], s => .go s
  | ch :: rest, s => (printChar (ch.setWidth 8) s).andThen (printAll rest)

/-- `ConsoleRead()` (43_trap_system.md R191): the next answer, or the engine is held with `waiting` unfinished and no other
change. -/
def consoleRead (waiting : Progress) (use : Byte → State → Flow) (s : State) : Flow :=
  match s.input with
  | [] => .go (s.setProgress (some waiting))
  | c :: rest => use c (s.setInput rest)

/-- GETC after its read: the low 8 bits into R0, no output, no flag (43_trap_system.md R195). -/
def getcStore (c : Byte) (s : State) : Flow := .go (s.setReg 0 (zext c))

/-- IN after its read: echo, line feed unless at line start, then R0 (43_trap_system.md R198). -/
def inStore (c : Byte) (s : State) : Flow :=
  ((printChar c s).andThen ensureLineStart).andThen (fun t => .go (t.setReg 0 (zext c)))

/-- The loop of PUTS (43_trap_system.md R197) over at most `cells` cells; with cells left unread it goes on in the next
transition (log 12; no run comes to that). -/
def putsLoop : Nat → Word → State → Flow
  | 0, a, s => .go (s.setProgress (some (.puts a)))
  | cells + 1, a, s =>
    match memRead a s with
    | .error kind => .raise kind s
    | .ok w =>
      if w = 0x0000#16 then .go s
      else if 0x007F#16 < w then .raise .unimplemented s
      else (printChar (w.extractLsb' 0 8) s).andThen (putsLoop cells (a + 1))

/-- The loop of PUTSP (43_trap_system.md R199): the low byte first, then the high byte, a zero byte ends the string. -/
def putspLoop : Nat → Word → State → Flow
  | 0, a, s => .go (s.setProgress (some (.putsp a)))
  | cells + 1, a, s =>
    match memRead a s with
    | .error kind => .raise kind s
    | .ok w =>
      if w.extractLsb' 0 8 = 0x00#8 then .go s
      else
        (printChar (w.extractLsb' 0 8) s).andThen fun t =>
          if w.extractLsb' 8 8 = 0x00#8 then .go t
          else (printChar (w.extractLsb' 8 8) t).andThen (putspLoop cells (a + 1))

end Sys2Proof.Machine
end

