-- ==== Sys2Proof/Machine/Trap.lean ====
section
/-! DEFINITION. The meanings of TRAP and its six vectors, RTI and the unassigned opcode (43_trap_system.md), and how an
instruction left unfinished goes on. TRAP itself writes no register, no flag and no `pc` (R194, log 20). -/

namespace Sys2Proof.Machine

/-- GETC (43_trap_system.md R195). -/
def execGetc (s : State) : Host.Outcome State Fault Refusal :=
  (consoleRead .getc getcStore s).finish

/-- OUT (43_trap_system.md R196): the low 8 bits of R0. -/
def execOut (s : State) : Host.Outcome State Fault Refusal :=
  (printChar ((s.reg 0).extractLsb' 0 8) s).finish

/-- PUTS (43_trap_system.md R197). -/
def execPuts (s : State) : Host.Outcome State Fault Refusal :=
  ((ensureLineStart s).andThen (putsLoop addressSpace (s.reg 0))).finish

/-- IN (43_trap_system.md R198). -/
def execIn (s : State) : Host.Outcome State Fault Refusal :=
  ((printAll s.config.inPrompt s).andThen (consoleRead .in_ inStore)).finish

/-- PUTSP (43_trap_system.md R199). -/
def execPutsp (s : State) : Host.Outcome State Fault Refusal :=
  ((ensureLineStart s).andThen (putspLoop addressSpace (s.reg 0))).finish

/-- HALT (43_trap_system.md R200). -/
def execHalt (s : State) : Host.Outcome State Fault Refusal :=
  .next (s.setRun .halted)

/-- TRAP, the dispatch (43_trap_system.md R194): the six vectors, and `MalformedTrap` for every other (R201). The decoder
gives the generic form only for an unknown vector (log 27). -/
def execTrap (trapvect8 : BitVec 8) (s : State) : Host.Outcome State Fault Refusal :=
  if trapvect8 = 0x20#8 then execGetc s
  else if trapvect8 = 0x21#8 then execOut s
  else if trapvect8 = 0x22#8 then execPuts s
  else if trapvect8 = 0x23#8 then execIn s
  else if trapvect8 = 0x24#8 then execPutsp s
  else if trapvect8 = 0x25#8 then execHalt s
  else raise .malformedTrap s

/-- RTI (43_trap_system.md R202): "always rejected: `UnauthorizedInstr`". -/
def execRti (s : State) : Host.Outcome State Fault Refusal :=
  raise .unauthorizedInstr s

/-- The unassigned opcode (43_trap_system.md R203). -/
def execReserved1101 (s : State) : Host.Outcome State Fault Refusal :=
  raise .malformedInstr s

/-- An unfinished instruction goes on: a held read looks for its character again, a string trap prints the next cells
(log 11, log 12). A read that is not answered leaves the state as it is. -/
def resume (p : Progress) (s : State) : Host.Outcome State Fault Refusal :=
  let t := s.setProgress none
  match p with
  | .getc => (consoleRead .getc getcStore t).finish
  | .in_ => (consoleRead .in_ inStore t).finish
  | .puts a => (putsLoop addressSpace a t).finish
  | .putsp a => (putspLoop addressSpace a t).finish

end Sys2Proof.Machine
end

