-- ==== Sys2Proof/Machine/Step.lean ====
section
/-! DEFINITION. One step of the engine (30_encoding.md R100). -/

namespace Sys2Proof.Machine

/-- `Step()` (30_encoding.md R100), "taken only while `run == Running`". A terminal state has no step (10_state.md R36, log
9). An unfinished instruction goes on before anything is fetched (log 11). Otherwise fetch, decode, execute; a bad padding
field raises after the fetch increment and before the instruction touches anything. -/
def step (s : State) : Host.Outcome State Fault Refusal :=
  match s.run with
  | .halted => .fault .halted
  | .faulted kind => .fault (.faulted kind)
  | .running =>
    match s.inProgress with
    | some p => resume p s
    | none =>
      match fetch s with
      | .raise kind t => raise kind t
      | .word ir t =>
        match decode ir with
        | .error kind => raise kind t
        | .ok i => exec i t

/-- `s` about to fetch the Word of `nbits` bits `w`: the Word stands at `pc`, the engine is running, no instruction is
unfinished (log 26). `pc` and the window are left as they are, and a Word equal to a sentinel meets the guard of
20_memory.md R57 as any fetched Word does. -/
def State.withFetchWord (s : State) (nbits w : Nat) : State :=
  ((s.setWord s.pc (BitVec.ofNat 16 (w % 2 ^ nbits))).setRun .running).setProgress none

end Sys2Proof.Machine
end

