-- ==== Sys2Proof/Machine/Loader.lean ====
section
/-! DEFINITION. The loader's contract (70_reset_and_hazards.md R263 to R266): from an object image to the state when the
first step begins, or a loader error and no run at all (60_exceptions.md R235). Opening and reading the stream, and its two
errors FileOpen and FileRead, are outside the block (00_scope.md R4). -/

namespace Sys2Proof.Machine

/-- A Word of the wire, "big-endian": the first byte is bits 15 to 8 (70_reset_and_hazards.md R264). -/
def wireWord (hi lo : Byte) : Word := hi ++ lo

/-- The whole Words of the wire, a single byte at its end left over. -/
def wireWords : List Byte → List Word
  | [] => []
  | [_] => []
  | hi :: lo :: rest => wireWord hi lo :: wireWords rest

/-- Loading the Words of an object file: "Word 0 = load origin address; Words 1..N = payload" (R264). No Word at all is
`FileTooShort`; more than `65536 - origin` payload Words is `FileTooLong` (60_exceptions.md R235). -/
def loadWords (config : Config) : List Word → Except LoadError State
  | [] => .error .fileTooShort
  | origin :: payload =>
    if payload.length ≤ addressSpace - origin.toNat then .ok (State.boot config origin payload)
    else .error .fileTooLong

/-- Loading an object file given as bytes. "Fewer than one Word" is `FileTooShort`, one byte alone among them, and bytes past a
full memory are `FileTooLong` (60_exceptions.md R235). Nothing for a single byte left over behind a payload that fits: the
spec does not say what it does (91_not_in_source.md N23, log 25). -/
def loadBytes (config : Config) (file : List Byte) : Option (Except LoadError State) :=
  match loadWords config (wireWords file) with
  | .error e => some (.error e)
  | .ok s => if file.length % 2 = 0 then some (.ok s) else none

end Sys2Proof.Machine
end

