-- ==== Sys2Proof/Safety.lean ====
section
/-! DEFINITION. The terms statements use: which addresses may be touched, what a step keeps, the invariant of every state a
run meets, and how runs go on and end. -/

namespace Sys2Proof.Machine

/-! ### Access -/

/-- The "user-accessible memory invariant" at an address (20_memory.md R54), in natural numbers. -/
abbrev Accessible (a : Word) (s : State) : Prop :=
  s.start.toNat ≤ a.toNat ∧ a.toNat ≤ s.config.memoryUserMax.toNat

/-- The error of a reference to `a`, if it has one: the low test comes first (20_memory.md R54, log 22). -/
abbrev AccessError (a : Word) (kind : ErrorKind) (s : State) : Prop :=
  (kind = .addressTooLow ∧ a.toNat < s.start.toNat) ∨
  (kind = .addressTooHigh ∧ s.start.toNat ≤ a.toNat ∧ s.config.memoryUserMax.toNat < a.toNat)

/-! ### Frames -/

/-- Every general register but those listed keeps its value. -/
def KeepsRegsBut (written : List RegId) (s t : State) : Prop := ∀ r, r ∉ written → t.reg r = s.reg r

/-- Every Word of memory but those at the addresses listed keeps its value. -/
def KeepsMemoryBut (written : List Word) (s t : State) : Prop := ∀ a, a ∉ written → t.word a = s.word a

/-- The console and an unfinished instruction are untouched. -/
def KeepsConsole (s t : State) : Prop :=
  t.out = s.out ∧ t.atLineStart = s.atLineStart ∧ t.input = s.input ∧ t.inProgress = s.inProgress

/-- What no instruction writes: the inert register-file fields, the loaded-region bounds, the parameters (10_state.md R26,
R33). -/
def KeepsConstants (s t : State) : Prop :=
  t.stackPointer = s.stackPointer ∧ t.framePointer = s.framePointer ∧ t.start = s.start ∧ t.loadEnd = s.loadEnd ∧
  t.config = s.config

/-- The flags show the sign of a Word read as two's complement, one of the three and no other (40_operate.md R120). -/
def FlagsShow (v : Word) (t : State) : Prop :=
  (t.cond.getLsbD 2 = true ↔ v.toInt < 0) ∧ (t.cond.getLsbD 1 = true ↔ v.toInt = 0) ∧
  (t.cond.getLsbD 0 = true ↔ 0 < v.toInt)

/-- The general registers an instruction may write (10_state.md R21). -/
def writesRegs : Instr → List RegId
  | .addReg dr _ _ => [dr]
  | .addImm dr _ _ => [dr]
  | .andReg dr _ _ => [dr]
  | .andImm dr _ _ => [dr]
  | .not dr _      => [dr]
  | .br _ _        => []
  | .jmp _         => []
  | .jsr _         => [7]
  | .jsrr _        => [7]
  | .ld dr _       => [dr]
  | .st _ _        => []
  | .ldi dr _      => [dr]
  | .sti _ _       => []
  | .lea dr _      => [dr]
  | .ldr dr _ _    => [dr]
  | .str _ _ _     => []
  | .trap _        => [0]
  | .getc          => [0]
  | .out           => []
  | .puts          => []
  | .in_           => [0]
  | .putsp         => []
  | .halt          => []
  | .rti           => []
  | .reserved1101  => []

/-- The writers of `cond`: "exactly ADD, AND, NOT, LD, LDR, LDI" (10_state.md R28). -/
def writesCond : Instr → Bool
  | .addReg _ _ _ => true
  | .addImm _ _ _ => true
  | .andReg _ _ _ => true
  | .andImm _ _ _ => true
  | .not _ _      => true
  | .br _ _       => false
  | .jmp _        => false
  | .jsr _        => false
  | .jsrr _       => false
  | .ld _ _       => true
  | .st _ _       => false
  | .ldi _ _      => true
  | .sti _ _      => false
  | .lea _ _      => false
  | .ldr _ _ _    => true
  | .str _ _ _    => false
  | .trap _       => false
  | .getc         => false
  | .out          => false
  | .puts         => false
  | .in_          => false
  | .putsp        => false
  | .halt         => false
  | .rti          => false
  | .reserved1101 => false

/-- The addresses an instruction may store to, computed in the state it runs in: ST, STR and STI are the only stores
(20_memory.md R59). -/
def storesTo : Instr → State → List Word
  | .addReg _ _ _, _         => []
  | .addImm _ _ _, _         => []
  | .andReg _ _ _, _         => []
  | .andImm _ _ _, _         => []
  | .not _ _, _              => []
  | .br _ _, _               => []
  | .jmp _, _                => []
  | .jsr _, _                => []
  | .jsrr _, _               => []
  | .ld _ _, _               => []
  | .st _ offset9, s         => [pcRelative s offset9]
  | .ldi _ _, _              => []
  | .sti _ offset9, s        => [pcRelative s offset9]
  | .lea _ _, _              => []
  | .ldr _ _ _, _            => []
  | .str _ baseR offset6, s  => [baseOffset s baseR offset6]
  | .trap _, _               => []
  | .getc, _                 => []
  | .out, _                  => []
  | .puts, _                 => []
  | .in_, _                  => []
  | .putsp, _                => []
  | .halt, _                 => []
  | .rti, _                  => []
  | .reserved1101, _         => []

/-- The instructions that may touch the console: the traps (43_trap_system.md R190, R194). -/
def usesConsole : Instr → Bool
  | .addReg _ _ _ => false
  | .addImm _ _ _ => false
  | .andReg _ _ _ => false
  | .andImm _ _ _ => false
  | .not _ _      => false
  | .br _ _       => false
  | .jmp _        => false
  | .jsr _        => false
  | .jsrr _       => false
  | .ld _ _       => false
  | .st _ _       => false
  | .ldi _ _      => false
  | .sti _ _      => false
  | .lea _ _      => false
  | .ldr _ _ _    => false
  | .str _ _ _    => false
  | .trap _       => true
  | .getc         => true
  | .out          => true
  | .puts         => true
  | .in_          => true
  | .putsp        => true
  | .halt         => false
  | .rti          => false
  | .reserved1101 => false

/-! ### Printed text -/

/-- The characters a string of 7-bit characters appears as on the console (43_trap_system.md R192). -/
def shownText (text : List (BitVec 7)) : List Byte := text.map (fun ch => shown (ch.setWidth 8))

/-- What `EnsureLineStart()` appends (43_trap_system.md R204). -/
def pendingNewline (s : State) : List Byte := if s.atLineStart then [] else [0x0A#8]

/-- The newline flag of a console that shows `out`: nothing printed yet, or a line feed last (10_state.md R34). -/
def endsLine (out : List Byte) : Bool := out.getLast?.getD 0x0A#8 == 0x0A#8

/-- The cells from `a` on hold these characters, one a Word, each accessible and none zero (43_trap_system.md R197). -/
def HoldsText (s : State) : Word → List (BitVec 7) → Prop
  | _, [] => True
  | a, ch :: rest => Accessible a s ∧ s.word a = zext ch ∧ ch ≠ 0#7 ∧ HoldsText s (a + 1) rest

/-- The cells from `a` on hold these pairs of characters, low byte first, each accessible and none zero
(43_trap_system.md R199). -/
def HoldsPairs (s : State) : Word → List (BitVec 7 × BitVec 7) → Prop
  | _, [] => True
  | a, (lo, hi) :: rest =>
    Accessible a s ∧ s.word a = (hi.setWidth 8 ++ lo.setWidth 8 : BitVec 16) ∧ lo ≠ 0#7 ∧ hi ≠ 0#7 ∧
    HoldsPairs s (a + 1) rest

/-- The characters of packed pairs in the order they are printed. -/
def unpacked (pairs : List (BitVec 7 × BitVec 7)) : List (BitVec 7) := pairs.flatMap (fun p => [p.1, p.2])

/-! ### The invariant -/

/-- What holds in every state of every run: memory in its canonical form, "never more than one bit set" in `cond`
(10_state.md R27), only shown 7-bit characters printed (43_trap_system.md R192), the newline flag true to what was printed
(10_state.md R34), an unfinished instruction only while running, the loader's bounds and the parameters as constrained
(00_scope.md R6, 10_state.md R33). -/
structure State.Inv (s : State) : Prop where
  memory    : MemoryWf s.fill s.mem
  cond      : s.cond ∈ [0b000#3, 0b001#3, 0b010#3, 0b100#3]
  printed   : ∀ c ∈ s.out, c ≤ 0x7F#8 ∧ c ≠ 0x0D#8
  lineStart : s.atLineStart = endsLine s.out
  progress  : s.inProgress ≠ none → s.run = .running
  bounds    : s.start.toNat ≤ s.loadEnd ∧ s.loadEnd ≤ addressSpace
  config    : s.config.WellFormed

/-- No PUTS or PUTSP is left unfinished: the only instruction a transition may leave so is a held GETC or IN (log 11, log
12). -/
abbrev NoStringUnfinished (s : State) : Prop := s.inProgress ∈ [none, some .getc, some .in_]

/-- Exactly one flag is set (10_state.md R29). -/
abbrev OneFlagSet (s : State) : Prop := s.cond ∈ [0b001#3, 0b010#3, 0b100#3]

/-! ### Runs -/

/-- `t` comes after `s` in some number of steps (30_encoding.md R101). -/
inductive Reaches : State → State → Prop where
  | here  {s : State} : Reaches s s
  | later {s t u : State} (first : step s = .next t) (rest : Reaches t u) : Reaches s u

/-- The run of the engine has ended (70_reset_and_hazards.md R268). -/
def Ended (s : State) : Prop := s.run ≠ .running

/-- A safe run: it ended by HALT, "the only normal termination path" (70_reset_and_hazards.md R268). -/
def EndedWell (s : State) : Prop := s.run = .halted

/-- The engine is held in a console read, "neither halted nor faulted" (43_trap_system.md R191). -/
def Held (s : State) : Prop :=
  s.run = .running ∧ (s.inProgress = some .getc ∨ s.inProgress = some .in_) ∧ s.input = []

end Sys2Proof.Machine
end

