-- ==== Sys2Proof/Certificates/Slice0/Obligations.lean ====
section
/-! DEFINITION. The statements for the provers. Each docstring names the rule or section of spec/ it formalises, and the log
entry of any choice it rests on. Statements about an instruction speak of the state its rule starts from: the Word fetched,
`pc` already incremented (30_encoding.md R100). A statement holds for every value of the parameters and of `input`. -/

open Sys2Proof Sys2Proof.Machine

/-! ### Encoding -/

/-- Decoding an encoded well-formed instruction gives it back, every operand at every value (30_encoding.md section 3; the
numbers are the spec's from general knowledge, log 13). -/
def Obligations.DecodeEncodeRoundTrip : Prop :=
  ∀ i : Instr, i.WellFormed → decode (encode i) = .ok i

/-- The other direction: a decoded Word is well formed and is the encoding of its instruction, save for the bits the engine
ignores (30_encoding.md section 4, log 13, log 21). -/
def Obligations.DecodedWordReencodes : Prop :=
  ∀ (ir : Word) (i : Instr), decode ir = .ok i →
    i.WellFormed ∧ (encode i ^^^ ir) &&& ~~~(ignoredBits i) = 0#16

/-- 30_encoding.md R96: bit 5 of NOT, bits 5 to 0 of JSRR and the low twelve bits of RTI and of opcode 1101 are ignored:
"any value decodes to the same instruction" (the opcode numbers, log 13; NOT and JSRR, log 21). -/
def Obligations.IgnoredBitsDecodeAlike : Prop :=
  ∀ ir : Word,
    (field ir 12 4 = 0b1001#4 → decode (ir ^^^ 0x0020#16) = decode ir) ∧
    (∀ low : BitVec 6, field ir 11 5 = 0b01000#5 → decode ((ir &&& 0xFFC0#16) ||| low.setWidth 16) = decode ir) ∧
    (field ir 12 4 = 0b1000#4 → decode ir = .ok .rti) ∧
    (field ir 12 4 = 0b1101#4 → decode ir = .ok .reserved1101)

/-- 30_encoding.md R95, R102: decoding refuses a Word exactly by the six padding checks, and always as `MalformedPadding`
(the opcode numbers and mode bits, log 13). -/
def Obligations.RefusedWordsAreTheSixPaddingCases : Prop :=
  ∀ (ir : Word) (kind : ErrorKind), decode ir = .error kind ↔
    kind = .malformedPadding ∧
      ((field ir 12 4 = 0b0001#4 ∧ field ir 5 1 = 0#1 ∧ field ir 3 2 ≠ 0#2) ∨
       (field ir 12 4 = 0b0101#4 ∧ field ir 5 1 = 0#1 ∧ field ir 3 2 ≠ 0#2) ∨
       (field ir 12 4 = 0b1001#4 ∧ field ir 0 5 ≠ 0b11111#5) ∨
       (field ir 12 4 = 0b1100#4 ∧ (field ir 9 3 ≠ 0#3 ∨ field ir 0 6 ≠ 0#6)) ∨
       (field ir 12 4 = 0b0100#4 ∧ field ir 11 1 = 0#1 ∧ field ir 9 2 ≠ 0#2) ∨
       (field ir 12 4 = 0b1111#4 ∧ field ir 8 4 ≠ 0#4))

/-- A decoded Word lies in its instruction's row of spec/opcode_table.json (30_encoding.md R107), and a Word decoded as the
generic TRAP has a vector that is none of the six (43_trap_system.md R194, R201). The rows' opcode numbers, mode bits and
vectors are the spec's from general knowledge (log 13); that the six have forms of their own is log 27. -/
def Obligations.DecodedWordLiesInItsTableRow : Prop :=
  ∀ (ir : Word) (i : Instr), decode ir = .ok i →
    ir &&& (tableRow i).mask = (tableRow i).pattern ∧ ∀ v, i = .trap v → v ∉ knownTrapVectors

/-- Words written out from the spec's encodings, one or more of each family, decode to what they stand for
(95_test_vectors.md sections 2.1 to 2.4, log 13). -/
def Obligations.SampleWordsDecode : Prop :=
  decode 0b0001_001_000_1_00101#16 = .ok (.addImm 1 0 5#5) ∧
  decode 0b0101_010_001_0_00_001#16 = .ok (.andReg 2 1 1) ∧
  decode 0b1001_010_010_1_11111#16 = .ok (.not 2 2) ∧
  decode 0b0000_010_000000010#16 = .ok (.br 0b010#3 2#9) ∧
  decode 0b0100_0_00_010_000000#16 = .ok (.jsrr 2) ∧
  decode 0b1011_011_000000100#16 = .ok (.sti 3 4#9) ∧
  decode 0b0111_001_010_111111#16 = .ok (.str 1 2 0b111111#6) ∧
  decode 0b1111_0000_00100101#16 = .ok .halt ∧
  decode 0b1111_0001_00100101#16 = .error .malformedPadding

/-- 00_scope.md R9: sign extension of a field of 5, 6, 9 or 11 bits ORs ones into the higher bits when the field's top bit
is set and leaves it unchanged otherwise; its value is the field's two's-complement value; zero extension keeps the
unsigned value. -/
def Obligations.SignExtensionIsExact : Prop :=
  (∀ n ∈ [5, 6, 9, 11], ∀ v : BitVec n,
    sext v = (if v.getLsbD (n - 1) then v.setWidth 16 ||| (0xFFFF#16 <<< n) else v.setWidth 16) ∧
    (sext v).toInt = v.toInt ∧
    (∀ a : Word, a + sext v = a + BitVec.ofInt 16 v.toInt)) ∧
  ∀ n ≤ 16, ∀ v : BitVec n, (zext v).toNat = v.toNat

/-! ### The instruction cycle -/

/-- A step runs the decoded instruction: when the Word at an accessible `pc` is no sentinel and decodes to `i`, the step is
`exec i` with `pc` incremented (30_encoding.md section 5, R100). -/
def Obligations.StepRunsDecodedInstruction : Prop :=
  ∀ (s : State) (i : Instr), s.run = .running → s.inProgress = none → Accessible s.pc s →
    s.word s.pc ≠ s.config.sentinelBelow → s.word s.pc ≠ s.config.sentinelAbove → decode (s.word s.pc) = .ok i →
    step s = exec i { s with pc := s.pc + 1 }

/-- What the fetch and the decoder fault on, in the order of 60_exceptions.md section 3: an inaccessible `pc`, which keeps its
value; then, with `pc` incremented, a Word equal to a sentinel, `AddressTooLow` for the one below; then a bad padding field
(which error a sentinel gives and the order are the spec's decisions D9 and D14, log 22, log 24). Nothing else changes. -/
def Obligations.FetchFaultsBeforeAnyEffect : Prop :=
  ∀ s : State, s.run = .running → s.inProgress = none →
    (∀ kind, AccessError s.pc kind s → step s = .next { s with run := .faulted kind }) ∧
    (Accessible s.pc s → s.word s.pc = s.config.sentinelBelow →
      step s = .next { s with pc := s.pc + 1, run := .faulted .addressTooLow }) ∧
    (Accessible s.pc s → s.word s.pc = s.config.sentinelAbove → s.config.sentinelBelow ≠ s.config.sentinelAbove →
      step s = .next { s with pc := s.pc + 1, run := .faulted .addressTooHigh }) ∧
    (∀ kind, Accessible s.pc s → s.word s.pc ≠ s.config.sentinelBelow → s.word s.pc ≠ s.config.sentinelAbove →
      decode (s.word s.pc) = .error kind →
      step s = .next { s with pc := s.pc + 1, run := .faulted .malformedPadding })

/-- The spec's part: a running engine steps whatever the Word it meets, and a terminal state has no step (30_encoding.md R101,
10_state.md R36, 60_exceptions.md R234). The model's part: an engine held in a console read, for which 43_trap_system.md R191
gives no step, steps to itself (log 11); a PUTS or PUTSP that all of memory continues, which no run comes to, ends its transition (log
12); the named faults of the terminal states (log 9). -/
def Obligations.StepsExactlyWhileRunning : Prop :=
  ∀ s : State, ((∃ t, step s = .next t) ↔ s.run = .running) ∧
    (s.run = .halted → step s = .fault .halted) ∧
    (∀ kind, s.run = .faulted kind → step s = .fault (.faulted kind))

/-! ### Registers and flags -/

/-- 10_state.md R20: a read returns the last value written, for each of the eight registers and no other; none is
hardwired. -/
def Obligations.RegisterReadsLastWrite : Prop :=
  ∀ (s : State) (r q : RegId) (v : Word), (s.setReg r v).reg q = if q = r then v else s.reg q

/-- 40_operate.md R120: Negative iff bit 15 is set, Zero iff the Word is zero, Positive iff neither; exactly one flag, and
nothing but `cond` is written. -/
def Obligations.SetccSetsExactlyOneFlag : Prop :=
  ∀ (s : State) (v : Word),
    (s.setcc v).cond = (if v.getLsbD 15 then 0b100#3 else if v = 0#16 then 0b010#3 else 0b001#3) ∧
    FlagsShow v (s.setcc v) ∧ OneFlagSet (s.setcc v) ∧ { s.setcc v with cond := s.cond } = s

/-- ADD in both modes (40_operate.md section 2): the sum modulo 65536 of the sources as they were before the write, the
immediate as a signed value, the flags of that sum, nothing else. -/
def Obligations.AddResult : Prop :=
  (∀ (dr sr1 sr2 : RegId) (s : State), ∃ t, exec (.addReg dr sr1 sr2) s = .next t ∧
    (t.reg dr).toNat = ((s.reg sr1).toNat + (s.reg sr2).toNat) % 65536 ∧
    FlagsShow (t.reg dr) t ∧ KeepsRegsBut [dr] s t ∧ KeepsMemoryBut [] s t ∧
    KeepsConsole s t ∧ KeepsConstants s t ∧ t.pc = s.pc ∧ t.run = s.run) ∧
  (∀ (dr sr1 : RegId) (imm5 : BitVec 5) (s : State), ∃ t, exec (.addImm dr sr1 imm5) s = .next t ∧
    ((t.reg dr).toNat : Int) = ((s.reg sr1).toNat + imm5.toInt) % 65536 ∧
    FlagsShow (t.reg dr) t ∧ KeepsRegsBut [dr] s t ∧ KeepsMemoryBut [] s t ∧
    KeepsConsole s t ∧ KeepsConstants s t ∧ t.pc = s.pc ∧ t.run = s.run)

/-- AND in both modes (40_operate.md section 3), bit by bit; bits 4 to 15 of the immediate are its sign bit. -/
def Obligations.AndResult : Prop :=
  (∀ (dr sr1 sr2 : RegId) (s : State), ∃ t, exec (.andReg dr sr1 sr2) s = .next t ∧
    (∀ k, (t.reg dr).getLsbD k = ((s.reg sr1).getLsbD k && (s.reg sr2).getLsbD k)) ∧
    FlagsShow (t.reg dr) t ∧ KeepsRegsBut [dr] s t ∧ KeepsMemoryBut [] s t ∧
    KeepsConsole s t ∧ KeepsConstants s t ∧ t.pc = s.pc ∧ t.run = s.run) ∧
  (∀ (dr sr1 : RegId) (imm5 : BitVec 5) (s : State), ∃ t, exec (.andImm dr sr1 imm5) s = .next t ∧
    (∀ k, (t.reg dr).getLsbD k = ((s.reg sr1).getLsbD k && imm5.getLsbD (min k 4))) ∧
    FlagsShow (t.reg dr) t ∧ KeepsRegsBut [dr] s t ∧ KeepsMemoryBut [] s t ∧
    KeepsConsole s t ∧ KeepsConstants s t ∧ t.pc = s.pc ∧ t.run = s.run)

/-- NOT (40_operate.md section 4): `0xFFFF - x[SR]`. -/
def Obligations.NotResult : Prop :=
  ∀ (dr sr : RegId) (s : State), ∃ t, exec (.not dr sr) s = .next t ∧
    (t.reg dr).toNat = 0xFFFF - (s.reg sr).toNat ∧
    FlagsShow (t.reg dr) t ∧ KeepsRegsBut [dr] s t ∧ KeepsMemoryBut [] s t ∧
    KeepsConsole s t ∧ KeepsConstants s t ∧ t.pc = s.pc ∧ t.run = s.run

/-- 10_state.md section 4: `cond` changes only in ADD, AND, NOT, LD, LDR and LDI (that GETC and IN are not among them is the
spec's decision D19, log 20). -/
def Obligations.FlagsWrittenOnlyBySixInstructions : Prop :=
  ∀ (i : Instr) (s t : State), exec i s = .next t → writesCond i = false → t.cond = s.cond

/-- 10_state.md section 4: "Reader: only BR." For any other instruction the value of `cond` before it makes no difference to
anything but `cond`. -/
def Obligations.OnlyBranchReadsFlags : Prop :=
  ∀ (i : Instr) (s t : State) (c : BitVec 3), (∀ mask offset9, i ≠ .br mask offset9) → exec i s = .next t →
    ∃ u, exec i { s with cond := c } = .next u ∧ { u with cond := t.cond } = t

/-- 10_state.md section 1, R21: an instruction writes no general register but the one its field names, R7 in JSR and JSRR,
R0 in GETC and IN. -/
def Obligations.RegistersWrittenOnlyAsNamed : Prop :=
  ∀ (i : Instr) (s t : State), exec i s = .next t → KeepsRegsBut (writesRegs i) s t

/-! ### Control transfer -/

/-- BR (41_control.md section 1): taken exactly when n and Negative, z and Zero, or p and Positive meet; the target is the
incremented `pc` plus the signed offset; nothing else changes. -/
def Obligations.BranchTakenExactlyWhenMaskMeetsFlags : Prop :=
  ∀ (mask : BitVec 3) (offset9 : BitVec 9) (s : State), exec (.br mask offset9) s =
    .next (if (mask.getLsbD 2 ∧ s.cond.getLsbD 2) ∨ (mask.getLsbD 1 ∧ s.cond.getLsbD 1) ∨
              (mask.getLsbD 0 ∧ s.cond.getLsbD 0)
           then { s with pc := s.pc + BitVec.ofInt 16 offset9.toInt } else s)

/-- 41_control.md R141: a Word 0x0000 to 0x01FF is a BR with mask 000; it never branches, whatever `cond` holds, and only
advances `pc` by the fetch increment (where it can be fetched and is no sentinel). -/
def Obligations.MaskZeroNeverBranches : Prop :=
  (∀ s : State, s.run = .running → s.inProgress = none → Accessible s.pc s → s.word s.pc ≠ s.config.sentinelBelow →
    s.word s.pc ≠ s.config.sentinelAbove → (s.word s.pc).toNat ≤ 0x01FF → step s = .next { s with pc := s.pc + 1 }) ∧
  ∀ (offset9 : BitVec 9) (s : State), exec (.br 0b000#3 offset9) s = .next s

/-- JMP (41_control.md section 2), RET among it: `pc` becomes the base register's value, unchecked, and nothing else
changes. -/
def Obligations.JumpLoadsProgramCounter : Prop :=
  ∀ (baseR : RegId) (s : State), exec (.jmp baseR) s = .next { s with pc := s.reg baseR }

/-- JSR (41_control.md section 3): the return address into R7, then `pc` plus the signed offset; no flags. -/
def Obligations.JsrLinksThenJumps : Prop :=
  ∀ (offset11 : BitVec 11) (s : State), ∃ t, exec (.jsr offset11) s = .next t ∧
    t.reg 7 = s.pc ∧ t.pc = s.pc + BitVec.ofInt 16 offset11.toInt ∧ t.cond = s.cond ∧
    KeepsRegsBut [7] s t ∧ KeepsMemoryBut [] s t ∧ KeepsConsole s t ∧ KeepsConstants s t ∧ t.run = s.run

/-- JSRR (41_control.md section 3): R7 is saved first, so with R7 as its base register it falls through. -/
def Obligations.JsrrSavesBeforeReadingBase : Prop :=
  ∀ (baseR : RegId) (s : State), ∃ t, exec (.jsrr baseR) s = .next t ∧
    t.reg 7 = s.pc ∧ t.pc = (if baseR = 7 then s.pc else s.reg baseR) ∧ t.cond = s.cond ∧
    KeepsRegsBut [7] s t ∧ KeepsMemoryBut [] s t ∧ KeepsConsole s t ∧ KeepsConstants s t ∧ t.run = s.run

/-! ### Loads and stores -/

/-- 42_load_store.md section 1: the PC-relative and the base-plus-offset address are sums with the signed offset, modulo
65536 (the wrap is the spec's decision D18, log 23). -/
def Obligations.EffectiveAddresses : Prop :=
  ∀ (s : State) (offset9 : BitVec 9) (baseR : RegId) (offset6 : BitVec 6),
    ((pcRelative s offset9).toNat : Int) = (s.pc.toNat + offset9.toInt) % 65536 ∧
    ((baseOffset s baseR offset6).toNat : Int) = ((s.reg baseR).toNat + offset6.toInt) % 65536

/-- LD and LDR (42_load_store.md sections 2 and 3): the Word at the effective address into DR, with its flags; an inaccessible
address faults and changes nothing else. -/
def Obligations.LoadsReadOneWord : Prop :=
  ∀ (dr baseR : RegId) (offset9 : BitVec 9) (offset6 : BitVec 6) (s : State),
    (Accessible (pcRelative s offset9) s → ∃ t, exec (.ld dr offset9) s = .next t ∧
      t.reg dr = s.word (pcRelative s offset9) ∧ FlagsShow (t.reg dr) t ∧
      KeepsRegsBut [dr] s t ∧ KeepsMemoryBut [] s t ∧ KeepsConsole s t ∧ KeepsConstants s t ∧
      t.pc = s.pc ∧ t.run = s.run) ∧
    (∀ kind, AccessError (pcRelative s offset9) kind s →
      exec (.ld dr offset9) s = .next { s with run := .faulted kind }) ∧
    (Accessible (baseOffset s baseR offset6) s → ∃ t, exec (.ldr dr baseR offset6) s = .next t ∧
      t.reg dr = s.word (baseOffset s baseR offset6) ∧ FlagsShow (t.reg dr) t ∧
      KeepsRegsBut [dr] s t ∧ KeepsMemoryBut [] s t ∧ KeepsConsole s t ∧ KeepsConstants s t ∧
      t.pc = s.pc ∧ t.run = s.run) ∧
    (∀ kind, AccessError (baseOffset s baseR offset6) kind s →
      exec (.ldr dr baseR offset6) s = .next { s with run := .faulted kind })

/-- LDI (42_load_store.md section 4): two checked reads, the pointer and then the datum; the flags come from the datum; a
fault of either check changes nothing else. -/
def Obligations.LoadIndirect : Prop :=
  ∀ (dr : RegId) (offset9 : BitVec 9) (s : State),
    (Accessible (pcRelative s offset9) s → Accessible (s.word (pcRelative s offset9)) s →
      ∃ t, exec (.ldi dr offset9) s = .next t ∧
        t.reg dr = s.word (s.word (pcRelative s offset9)) ∧ FlagsShow (t.reg dr) t ∧
        KeepsRegsBut [dr] s t ∧ KeepsMemoryBut [] s t ∧ KeepsConsole s t ∧ KeepsConstants s t ∧
        t.pc = s.pc ∧ t.run = s.run) ∧
    (∀ kind, AccessError (pcRelative s offset9) kind s →
      exec (.ldi dr offset9) s = .next { s with run := .faulted kind }) ∧
    (∀ kind, Accessible (pcRelative s offset9) s → AccessError (s.word (pcRelative s offset9)) kind s →
      exec (.ldi dr offset9) s = .next { s with run := .faulted kind })

/-- ST and STR (42_load_store.md sections 2 and 3): the register's Word at the effective address, every other Word and
everything else unchanged; an inaccessible address faults before memory changes. -/
def Obligations.StoresWriteOneWord : Prop :=
  ∀ (sr baseR : RegId) (offset9 : BitVec 9) (offset6 : BitVec 6) (s : State),
    (Accessible (pcRelative s offset9) s → ∃ t, exec (.st sr offset9) s = .next t ∧
      t.word (pcRelative s offset9) = s.reg sr ∧ KeepsMemoryBut [(pcRelative s offset9)] s t ∧ { t with mem := s.mem } = s) ∧
    (∀ kind, AccessError (pcRelative s offset9) kind s →
      exec (.st sr offset9) s = .next { s with run := .faulted kind }) ∧
    (Accessible (baseOffset s baseR offset6) s → ∃ t, exec (.str sr baseR offset6) s = .next t ∧
      t.word (baseOffset s baseR offset6) = s.reg sr ∧ KeepsMemoryBut [(baseOffset s baseR offset6)] s t ∧ { t with mem := s.mem } = s) ∧
    (∀ kind, AccessError (baseOffset s baseR offset6) kind s →
      exec (.str sr baseR offset6) s = .next { s with run := .faulted kind })

/-- STI, this hardware's (42_load_store.md section 4): the Word that SR points to is copied to the PC-relative cell; the
pointer's check comes first (the order is the spec's decision D17, log 22), and neither fault changes memory. -/
def Obligations.StoreIndirectCopies : Prop :=
  ∀ (sr : RegId) (offset9 : BitVec 9) (s : State),
    (Accessible (s.reg sr) s → Accessible (pcRelative s offset9) s → ∃ t, exec (.sti sr offset9) s = .next t ∧
      t.word (pcRelative s offset9) = s.word (s.reg sr) ∧ KeepsMemoryBut [pcRelative s offset9] s t ∧
      { t with mem := s.mem } = s) ∧
    (∀ kind, AccessError (s.reg sr) kind s →
      exec (.sti sr offset9) s = .next { s with run := .faulted kind }) ∧
    (∀ kind, Accessible (s.reg sr) s → AccessError (pcRelative s offset9) kind s →
      exec (.sti sr offset9) s = .next { s with run := .faulted kind })

/-- LEA (42_load_store.md section 5): the PC-relative address into DR, unchecked; no memory access, no flags. -/
def Obligations.LoadEffectiveAddress : Prop :=
  ∀ (dr : RegId) (offset9 : BitVec 9) (s : State), ∃ t, exec (.lea dr offset9) s = .next t ∧
    ((t.reg dr).toNat : Int) = (s.pc.toNat + offset9.toInt) % 65536 ∧ t.cond = s.cond ∧
    KeepsRegsBut [dr] s t ∧ KeepsMemoryBut [] s t ∧ KeepsConsole s t ∧ KeepsConstants s t ∧
    t.pc = s.pc ∧ t.run = s.run

/-- 20_memory.md R56: a checked write to any address from `START` to `MEMORY_USER_MAX` replaces that Word and nothing else; a
failed check raises and leaves the state, memory among it, unchanged. -/
def Obligations.CheckedWriteReplacesOneWord : Prop :=
  ∀ (a v : Word) (s : State),
    (Accessible a s → ∃ t, memWrite a v s = .go t ∧ t.word a = v ∧ KeepsMemoryBut [a] s t ∧ { t with mem := s.mem } = s) ∧
    (∀ kind, AccessError a kind s → memWrite a v s = .raise kind s)

/-- 20_memory.md section 3, R59: memory changes only where ST, STR or STI stores, at the address computed as its meaning
computes it. -/
def Obligations.MemoryWrittenOnlyWhereStored : Prop :=
  ∀ (i : Instr) (s t : State), exec i s = .next t → KeepsMemoryBut (storesTo i s) s t

/-- 20_memory.md section 2, "the only protection mechanism": no step of any kind changes a Word outside the window. -/
def Obligations.InaccessibleMemoryNeverChanges : Prop :=
  ∀ (s t : State) (a : Word), step s = .next t → ¬ Accessible a s → t.word a = s.word a

/-- 20_memory.md section 4, R65: the Word that ST, STR or STI stores is what the next fetch of its address reads, with no delay;
a stored sentinel meets the fetch guard like any other (section 3, R61). Program order is the spec's decision D29 (log 23),
the sentinels' errors D9 (log 24), STI's checks D17 (log 22). -/
def Obligations.StoredWordIsFetchedNext : Prop :=
  ∀ (sr baseR : RegId) (offset9 : BitVec 9) (offset6 : BitVec 6) (s : State),
    let nextFetchReads (a v : Word) (t : State) : Prop :=
      fetch { t with pc := a } =
        if v = s.config.sentinelBelow then .raise .addressTooLow { t with pc := a + 1 }
        else if v = s.config.sentinelAbove then .raise .addressTooHigh { t with pc := a + 1 }
        else .word v { t with pc := a + 1 }
    (Accessible (pcRelative s offset9) s →
      ∃ t, exec (.st sr offset9) s = .next t ∧ nextFetchReads (pcRelative s offset9) (s.reg sr) t) ∧
    (Accessible (baseOffset s baseR offset6) s →
      ∃ t, exec (.str sr baseR offset6) s = .next t ∧ nextFetchReads (baseOffset s baseR offset6) (s.reg sr) t) ∧
    (Accessible (s.reg sr) s → Accessible (pcRelative s offset9) s →
      ∃ t, exec (.sti sr offset9) s = .next t ∧ nextFetchReads (pcRelative s offset9) (s.word (s.reg sr)) t)

/-! ### Traps -/

/-- GETC (43_trap_system.md section 2): the console's answer, zero-extended, into R0; no output, no flag. With no answer the
engine is held, the read left unfinished (log 10, log 11). -/
def Obligations.GetcStoresTheAnswer : Prop :=
  ∀ s : State,
    (∀ c rest, s.input = c :: rest → ∃ t, exec .getc s = .next t ∧
      (t.reg 0).toNat = c.toNat ∧ t.input = rest ∧ KeepsRegsBut [0] s t ∧ KeepsMemoryBut [] s t ∧
      t.out = s.out ∧ t.atLineStart = s.atLineStart ∧ t.inProgress = s.inProgress ∧ t.cond = s.cond ∧
      KeepsConstants s t ∧ t.pc = s.pc ∧ t.run = s.run) ∧
    (s.input = [] → exec .getc s = .next { s with inProgress := some .getc })

/-- OUT (43_trap_system.md section 2): the low byte of R0 if it is 7-bit, a carriage return as a line feed, the newline flag
accordingly; above 0x7F `Unimplemented` and nothing else (the flag's update rule is decision D21, log 17). -/
def Obligations.OutPrintsLowByte : Prop :=
  ∀ s : State,
    ((s.reg 0).toNat % 256 ≤ 0x7F → ∃ c : Byte, c.toNat = (if (s.reg 0).toNat % 256 = 0x0D then 0x0A else
        (s.reg 0).toNat % 256) ∧
      exec .out s = .next { s with out := s.out ++ [c], atLineStart := decide (c.toNat = 0x0A) }) ∧
    (0x7F < (s.reg 0).toNat % 256 → exec .out s = .next { s with run := .faulted .unimplemented })

/-- PUTS (43_trap_system.md section 2): a line feed if output is in mid-line, then the string that R0 points to, up to what
ends it: the terminator, a Word above 0x7F, or an inaccessible cell, in which cases what was printed stays. For every string
of fewer than 65536 cells (decisions D22, D23, log 18; the newline flag, D21, log 17; the line feed before the first check and
the state left at a fault, D34, D15, log 22). -/
def Obligations.PutsPrintsTheString : Prop :=
  ∀ (s : State) (text : List (BitVec 7)), HoldsText s (s.reg 0) text → text.length < 65536 →
    let last := s.reg 0 + BitVec.ofNat 16 text.length
    let printed := s.out ++ pendingNewline s ++ shownText text
    let shownState := { s with out := printed,
                               atLineStart := if pendingNewline s ++ shownText text = [] then s.atLineStart
                                              else endsLine printed }
    (Accessible last s → s.word last = 0#16 → exec .puts s = .next shownState) ∧
    (Accessible last s → 0x7F < (s.word last).toNat →
      exec .puts s = .next { shownState with run := .faulted .unimplemented }) ∧
    (∀ kind, AccessError last kind s → exec .puts s = .next { shownState with run := .faulted kind })

/-- PUTSP (43_trap_system.md section 2): two characters a Word, the low byte first; a zero byte in either place ends the
string, after the low byte when it is the high one; a byte above 0x7F or an inaccessible cell faults after what came before
(decisions D22, D23, D36, log 18; the newline flag, D21, log 17; the line feed before the first check and the state left at a
fault, D34, D15, log 22). -/
def Obligations.PutspPrintsTheString : Prop :=
  ∀ (s : State) (pairs : List (BitVec 7 × BitVec 7)), HoldsPairs s (s.reg 0) pairs → pairs.length < 65536 →
    let last := s.reg 0 + BitVec.ofNat 16 pairs.length
    let showing (text : List (BitVec 7)) : State :=
      { s with out := s.out ++ pendingNewline s ++ shownText text,
               atLineStart := if pendingNewline s ++ shownText text = [] then s.atLineStart
                              else endsLine (s.out ++ pendingNewline s ++ shownText text) }
    (Accessible last s → (s.word last).toNat % 256 = 0 → exec .putsp s = .next (showing (unpacked pairs))) ∧
    (Accessible last s → 0x7F < (s.word last).toNat % 256 →
      exec .putsp s = .next { showing (unpacked pairs) with run := .faulted .unimplemented }) ∧
    (∀ ch : BitVec 7, ch ≠ 0#7 → Accessible last s → (s.word last).toNat % 256 = ch.toNat →
      ((s.word last).toNat / 256 = 0 → exec .putsp s = .next (showing (unpacked pairs ++ [ch]))) ∧
      (0x7F < (s.word last).toNat / 256 →
        exec .putsp s = .next { showing (unpacked pairs ++ [ch]) with run := .faulted .unimplemented })) ∧
    (∀ kind, AccessError last kind s →
      exec .putsp s = .next { showing (unpacked pairs) with run := .faulted kind })

/-- No step leaves a PUTS or PUTSP unfinished: from a state without one, it ends within its step, as 43_trap_system.md section 2
writes it, so the bound of 65536 cells a transition (log 12) is never seen in a run. The trap's own Word, at `pc - 1`, holds a
byte above 0x7F, so a pass over all of memory faults there at the latest (decision D23, log 18; the Words 0xF022 and 0xF024
rest on log 13). What a transition may leave unfinished is a held read, the model's own (log 11). -/
def Obligations.StringTrapsEndWithinTheirStep : Prop :=
  ∀ s t : State, NoStringUnfinished s → step s = .next t → NoStringUnfinished t

/-- IN (43_trap_system.md section 2): the prompt, the answer's echo, a line feed unless at line start, then the answer into
R0; an answer above 0x7F faults at the echo, before R0 is written; with no answer the engine is held after the prompt
(decisions D22, D23, log 18; D25, log 19; the newline flag left at the fault and by the held read, D21, log 17; how a read is
held and answered, log 10, log 11). -/
def Obligations.InPromptsReadsAndEchoes : Prop :=
  ∀ s : State,
    let prompted := s.out ++ shownText s.config.inPrompt
    let promptedFlag := if s.config.inPrompt = [] then s.atLineStart else endsLine prompted
    (∀ c rest, s.input = c :: rest → c.toNat ≤ 0x7F → ∃ t, exec .in_ s = .next t ∧
      (t.reg 0).toNat = c.toNat ∧ t.input = rest ∧
      t.out = prompted ++ (if c = 0x0A#8 ∨ c = 0x0D#8 then [0x0A#8] else [c, 0x0A#8]) ∧ t.atLineStart = true ∧
      KeepsRegsBut [0] s t ∧ KeepsMemoryBut [] s t ∧ t.cond = s.cond ∧ t.inProgress = s.inProgress ∧
      KeepsConstants s t ∧ t.pc = s.pc ∧ t.run = s.run) ∧
    (∀ c rest, s.input = c :: rest → 0x7F < c.toNat →
      exec .in_ s = .next { s with out := prompted, atLineStart := promptedFlag, input := rest,
                                   run := .faulted .unimplemented }) ∧
    (s.input = [] →
      exec .in_ s = .next { s with out := prompted, atLineStart := promptedFlag, inProgress := some .in_ })

/-- HALT (43_trap_system.md section 2): the run ends, nothing else changes (that it prints nothing is decision D26, log
19). -/
def Obligations.HaltEndsTheRun : Prop :=
  ∀ s : State, exec .halt s = .next { s with run := .halted } ∧
    ∀ t, exec .halt s = .next t → t.statusCode = some 0 ∧ EndedWell t

/-- TRAP (43_trap_system.md section 2): a vector outside 0x20 to 0x25 raises `MalformedTrap` and changes nothing else; a
vector of the six runs its routine (five of the numbers are the spec's from general knowledge, log 13). -/
def Obligations.TrapDispatchesOnItsVector : Prop :=
  ∀ (v : BitVec 8) (s : State),
    (v.toNat < 0x20 ∨ 0x25 < v.toNat → exec (.trap v) s = .next { s with run := .faulted .malformedTrap }) ∧
    (0x20 ≤ v.toNat → v.toNat ≤ 0x25 → ∃ i, decode (0xF000#16 ||| v.setWidth 16) = .ok i ∧
      i ∈ [Instr.getc, .out, .puts, .in_, .putsp, .halt] ∧ exec (.trap v) s = exec i s)

/-- RTI and the unassigned opcode (43_trap_system.md section 3): RTI always raises `UnauthorizedInstr`, the unassigned opcode
`MalformedInstr`, and nothing else changes (that the unassigned opcode is 1101 is the spec's decision D2, log 13). -/
def Obligations.RtiAndReservedOpcodeAlwaysRaise : Prop :=
  ∀ s : State, exec .rti s = .next { s with run := .faulted .unauthorizedInstr } ∧
    exec .reserved1101 s = .next { s with run := .faulted .malformedInstr }

/-- A GETC or IN with no answer is held; a held engine that no character answers stays as it is; and answered later it ends as
if the answer had been there at once: the wait is invisible (43_trap_system.md section 1, 60_exceptions.md section 4 "all
state survives the wait unchanged"; that a held engine steps to itself is the model's choice, log 11). -/
def Obligations.HeldReadEndsAsIfAnsweredAtOnce : Prop :=
  (∀ s : State, Held s → step s = .next s) ∧
  ∀ (i : Instr) (s t : State) (c : Byte) (rest : List Byte), i ∈ [Instr.getc, .in_] →
    s.run = .running → s.inProgress = none → s.input = [] → exec i s = .next t →
    Held t ∧ step (t.supply (c :: rest)) = exec i (s.supply (c :: rest))

/-- Output is only ever appended to (10_state.md section 6). -/
def Obligations.OutputIsAppendOnly : Prop :=
  ∀ s t : State, Reaches s t → s.out <+: t.out

/-- Only the traps touch the console, and HALT is not among those that do (43_trap_system.md sections 1 and 2; that HALT prints
nothing is the spec's decision D26, log 19). The list of answers and the unfinished read are the model's (log 10, log 11). -/
def Obligations.OnlyTrapsTouchTheConsole : Prop :=
  ∀ (i : Instr) (s t : State), exec i s = .next t → usesConsole i = false → KeepsConsole s t

/-! ### Errors and the end of a run -/

/-- 60_exceptions.md R228: `raise kind` writes `run` and nothing else, and the state it leaves has no step. -/
def Obligations.RaiseWritesOnlyTheRunState : Prop :=
  ∀ (kind : ErrorKind) (s : State), ∃ t, raise kind s = .next t ∧ t.run = .faulted kind ∧
    { t with run := s.run } = s ∧ ∀ u, step t ≠ .next u

/-- 60_exceptions.md section 2, R229: a step that faults leaves every register, every Word of memory and `cond` as they were,
and `pc` at the bad address exactly when the fetch's own check failed, incremented otherwise; only characters already printed
and an answer already read may differ (the spec's decision D15, log 22). An instruction left unfinished by an earlier
transition (log 11, log 12) was incremented past then, so its fault leaves `pc` as it is. -/
def Obligations.FaultsArePrecise : Prop :=
  ∀ (s t : State) (kind : ErrorKind), step s = .next t → t.run = .faulted kind →
    t.regs = s.regs ∧ t.mem = s.mem ∧ t.cond = s.cond ∧ KeepsConstants s t ∧
    (s.inProgress = none → t.pc = if Accessible s.pc s then s.pc + 1 else s.pc) ∧
    (s.inProgress ≠ none → t.pc = s.pc) ∧ s.out <+: t.out

/-- 60_exceptions.md section 1, R223 to R226: what each of four error kinds can come from: a bad padding field, opcode 1101, an
unknown trap vector, RTI (the opcode numbers, log 13). -/
def Obligations.ErrorKindsHaveTheirOwnCauses : Prop :=
  ∀ s t : State, step s = .next t →
    (t.run = .faulted .malformedPadding → decode (s.word s.pc) = .error .malformedPadding) ∧
    (t.run = .faulted .malformedInstr → field (s.word s.pc) 12 4 = 0b1101#4) ∧
    (t.run = .faulted .malformedTrap →
      field (s.word s.pc) 8 8 = 0xF0#8 ∧ field (s.word s.pc) 0 8 ∉ knownTrapVectors) ∧
    (t.run = .faulted .unauthorizedInstr → field (s.word s.pc) 12 4 = 0b1000#4)

/-- 10_state.md section 6, R36: the only way into the halted state is a fetched `TRAP x25`, and that step changes nothing but
`pc` and the run state (that the Word is 0xF025 rests on TRAP's opcode number, log 13; that HALT prints nothing is the spec's
decision D26, log 19). -/
def Obligations.HaltOnlyByTrap25 : Prop :=
  ∀ s t : State, step s = .next t → t.run = .halted →
    s.word s.pc = 0xF025#16 ∧ Accessible s.pc s ∧ t = { s with pc := s.pc + 1, run := .halted }

/-- 60_exceptions.md section 2, R233: the status code is 0 exactly after HALT, and two faulted runs have the same code exactly
when they ended in the same kind; the codes are a parameter (decision D13, log 6). -/
def Obligations.StatusCodeIdentifiesTheEnd : Prop :=
  ∀ s t : State, s.config.WellFormed → t.config = s.config →
    (s.statusCode = some 0 ↔ s.run = .halted) ∧ (s.statusCode = none ↔ s.run = .running) ∧
    (s.statusCode = t.statusCode ↔ s.run = t.run)

/-! ### The whole machine -/

/-- Every step keeps the invariant (`State.Inv`): the canonical form of memory, at most one flag, only shown 7-bit characters
printed, the newline flag true to the output, an unfinished instruction only while running, bounds and parameters
(10_state.md R27, R33, R34; 43_trap_system.md R192). The canonical form is the model's (log 8), as are the parameters kept in
State (log 1) and the unfinished instruction (log 11, for PUTS and PUTSP log 12); the printed characters are the spec's
decisions D22 and D23 (log 18), the newline flag D20 and D21 (log 17). -/
def Obligations.StepKeepsInvariant : Prop :=
  ∀ s t : State, s.Inv → step s = .next t → t.Inv

/-- The reset state of every load that fits, for every parameter value as constrained, meets the invariant
(70_reset_and_hazards.md R261, R265). -/
def Obligations.BootMeetsInvariant : Prop :=
  ∀ (config : Config) (start : Word) (image : List Word), config.WellFormed →
    image.length ≤ 65536 - start.toNat → (State.boot config start image).Inv

/-- The model's own reset state meets the invariant (its parameter values are the model's, log 2 to log 7). -/
def Obligations.ResetMeetsInvariant : Prop :=
  State.reset.Inv

/-- 10_state.md section 4: once an instruction has written the flags, exactly one is set, for ever. -/
def Obligations.OneFlagSetForEver : Prop :=
  (∀ (i : Instr) (s t : State), writesCond i = true → exec i s = .next t → t.run = s.run → s.run = .running →
    OneFlagSet t) ∧
  (∀ s t : State, OneFlagSet s → Reaches s t → OneFlagSet t)

/-- 10_state.md sections 3 and 5: `stack_pointer`, `frame_pointer` and `END` are read by nothing and written by nothing: a
step with other values of theirs is the same step (the spec's decisions D11, D32, log 15). -/
def Obligations.InertFieldsNeverMatter : Prop :=
  ∀ (s t : State) (sp fp : Word) (loadEnd : Nat), step s = .next t →
    step { s with stackPointer := sp, framePointer := fp, loadEnd := loadEnd } =
      .next { t with stackPointer := sp, framePointer := fp, loadEnd := loadEnd }

/-- The loaded-region bounds (10_state.md section 5) and the two inert fields (section 3, the spec's decision D11, log 15) never
change during a run. The parameters (00_scope.md section 3) are in the model a record in State that no step changes, its own
choice (log 1). -/
def Obligations.BoundsAndParametersAreConstant : Prop :=
  ∀ s t : State, Reaches s t → KeepsConstants s t

/-- 10_state.md R32: memory after reset, at every address, for every load that fits. -/
def Obligations.ResetMemoryContents : Prop :=
  ∀ (config : Config) (start : Word) (image : List Word), image.length ≤ 65536 - start.toNat → ∀ a : Word,
    (State.boot config start image).word a =
      if a.toNat < start.toNat then config.sentinelBelow
      else if h : a.toNat - start.toNat < image.length then image[a.toNat - start.toNat]
      else config.sentinelAbove

/-- 70_reset_and_hazards.md section 2: with an empty payload, whatever its origin and the ceiling, the first step faults with
`AddressTooHigh` (that the above-sentinel gives this error is the spec's decision D9, log 24). -/
def Obligations.EmptyPayloadFaultsAtOnce : Prop :=
  ∀ (config : Config) (start : Word), config.WellFormed →
    ∃ t, step (State.boot config start []) = .next t ∧ t.run = .faulted .addressTooHigh

/-- 10_state.md R38: every other piece of state after reset (the values of `pc`, `cond`, the newline flag, `out` and R5, R6 are
the spec's decisions D10, D11, D12, D20, D21, log 14 to log 17; `input` and `inProgress` are the model's own fields and their
values its choice, log 10, log 11). -/
def Obligations.ResetValues : Prop :=
  ∀ (config : Config) (start : Word) (image : List Word),
    let s := State.boot config start image
    (∀ r, s.reg r = 0#16) ∧ s.pc = start ∧ s.stackPointer = config.spInit ∧ s.framePointer = config.fpInit ∧
    s.cond = 0b000#3 ∧ s.start = start ∧ s.loadEnd = start.toNat + image.length ∧ s.atLineStart = true ∧
    s.out = [] ∧ s.run = .running ∧ s.config = config ∧ s.input = [] ∧ s.inProgress = none

/-- An object file is the origin and the payload, each Word high byte first (70_reset_and_hazards.md R264), and loading it gives
the reset state of that load. "Fewer than one Word", one byte alone among it, is `FileTooShort`; a payload past the end of
memory is `FileTooLong`, whatever single byte trails it (R265, 60_exceptions.md R235). That a load error is no run is the
spec's decision D31; a single byte behind a payload that fits is left out, as the spec does not say what it does (log 25). -/
def Obligations.ObjectFileIsBigEndian : Prop :=
  ∀ (config : Config) (origin : Word) (payload : List Word) (trailing : List Byte), trailing.length ≤ 1 →
    let bytes (w : Word) : List Byte := [field w 8 8, field w 0 8]
    loadBytes config trailing = some (.error .fileTooShort) ∧
    (payload.length ≤ 65536 - origin.toNat →
      loadBytes config (bytes origin ++ payload.flatMap bytes) = some (.ok (State.boot config origin payload))) ∧
    (65536 - origin.toNat < payload.length →
      loadBytes config (bytes origin ++ payload.flatMap bytes ++ trailing) = some (.error .fileTooLong))
end

