-- ==== Sys2Proof/Laws/Decode.lean ====
section
/-! SUPPORT. The fields of the word formats read back, and every Word is made of its fields. -/

namespace Sys2Proof

/-! ### Bits -/

theorem getLsbD_field (ir : Word) (lo w i : Nat) :
    (field ir lo w).getLsbD i = (decide (i < w) && ir.getLsbD (lo + i)) := by
  simp [field]

theorem getLsbD_threeFields (op : BitVec 4) (high mid : BitVec 3) (low : BitVec 6) (i : Nat) :
    (threeFields op high mid low).getLsbD i =
      if i < 6 then low.getLsbD i else if i < 9 then mid.getLsbD (i - 6)
      else if i < 12 then high.getLsbD (i - 9) else op.getLsbD (i - 12) := by
  simp only [threeFields, BitVec.getLsbD_append]
  split
  · rfl
  · split
    · rw [if_pos (by omega)]
    · split
      · rw [if_neg (by omega), if_pos (by omega)]; congr 1
      · rw [if_neg (by omega), if_neg (by omega)]; congr 1

theorem getLsbD_twoFields (op : BitVec 4) (high : BitVec 3) (low : BitVec 9) (i : Nat) :
    (twoFields op high low).getLsbD i =
      if i < 9 then low.getLsbD i else if i < 12 then high.getLsbD (i - 9) else op.getLsbD (i - 12) := by
  simp only [twoFields, BitVec.getLsbD_append]
  split
  · rfl
  · split
    · rw [if_pos (by omega)]
    · rw [if_neg (by omega)]; congr 1

theorem getLsbD_jsrFields (op : BitVec 4) (mode : BitVec 1) (low : BitVec 11) (i : Nat) :
    (jsrFields op mode low).getLsbD i =
      if i < 11 then low.getLsbD i else if i < 12 then mode.getLsbD (i - 11) else op.getLsbD (i - 12) := by
  simp only [jsrFields, BitVec.getLsbD_append]
  split
  · rfl
  · split
    · rw [if_pos (by omega)]
    · rw [if_neg (by omega)]; congr 1

theorem getLsbD_trapFields (op padding : BitVec 4) (low : BitVec 8) (i : Nat) :
    (trapFields op padding low).getLsbD i =
      if i < 8 then low.getLsbD i else if i < 12 then padding.getLsbD (i - 8) else op.getLsbD (i - 12) := by
  simp only [trapFields, BitVec.getLsbD_append]
  split
  · rfl
  · split
    · rw [if_pos (by omega)]
    · rw [if_neg (by omega)]; congr 1

/-! ### Fields of a format -/

section three
variable (op : BitVec 4) (high mid : BitVec 3) (low : BitVec 6)

@[simp] theorem threeFields_op : field (threeFields op high mid low) 12 4 = op := by
  apply BitVec.eq_of_getLsbD_eq; intro i hi
  rw [getLsbD_field, getLsbD_threeFields, if_neg (by omega), if_neg (by omega), if_neg (by omega)]
  simp [hi]

@[simp] theorem threeFields_high : field (threeFields op high mid low) 9 3 = high := by
  apply BitVec.eq_of_getLsbD_eq; intro i hi
  rw [getLsbD_field, getLsbD_threeFields, if_neg (by omega), if_neg (by omega), if_pos (by omega)]
  simp [hi]

@[simp] theorem threeFields_mid : field (threeFields op high mid low) 6 3 = mid := by
  apply BitVec.eq_of_getLsbD_eq; intro i hi
  rw [getLsbD_field, getLsbD_threeFields, if_neg (by omega), if_pos (by omega)]
  simp [hi]

theorem threeFields_low {k w : Nat} (h : k + w ≤ 6) : field (threeFields op high mid low) k w = low.extractLsb' k w := by
  apply BitVec.eq_of_getLsbD_eq; intro i hi
  rw [getLsbD_field, getLsbD_threeFields, if_pos (by omega)]
  simp

theorem threeFields_bit11 : field (threeFields op high mid low) 11 1 = high.extractLsb' 2 1 := by
  apply BitVec.eq_of_getLsbD_eq; intro i hi
  rw [getLsbD_field, getLsbD_threeFields, if_neg (by omega), if_neg (by omega), if_pos (by omega)]
  simp [show 11 + i - 9 = 2 + i by omega]

theorem threeFields_bits9_10 : field (threeFields op high mid low) 9 2 = high.extractLsb' 0 2 := by
  apply BitVec.eq_of_getLsbD_eq; intro i hi
  rw [getLsbD_field, getLsbD_threeFields, if_neg (by omega), if_neg (by omega), if_pos (by omega)]
  simp

end three

section two
variable (op : BitVec 4) (high : BitVec 3) (low : BitVec 9)

@[simp] theorem twoFields_op : field (twoFields op high low) 12 4 = op := by
  apply BitVec.eq_of_getLsbD_eq; intro i hi
  rw [getLsbD_field, getLsbD_twoFields, if_neg (by omega), if_neg (by omega)]
  simp [hi]

@[simp] theorem twoFields_high : field (twoFields op high low) 9 3 = high := by
  apply BitVec.eq_of_getLsbD_eq; intro i hi
  rw [getLsbD_field, getLsbD_twoFields, if_neg (by omega), if_pos (by omega)]
  simp [hi]

@[simp] theorem twoFields_low : field (twoFields op high low) 0 9 = low := by
  apply BitVec.eq_of_getLsbD_eq; intro i hi
  rw [getLsbD_field, getLsbD_twoFields, if_pos (by omega)]
  simp [hi]

end two

section jsr
variable (op : BitVec 4) (mode : BitVec 1) (low : BitVec 11)

@[simp] theorem jsrFields_op : field (jsrFields op mode low) 12 4 = op := by
  apply BitVec.eq_of_getLsbD_eq; intro i hi
  rw [getLsbD_field, getLsbD_jsrFields, if_neg (by omega), if_neg (by omega)]
  simp [hi]

@[simp] theorem jsrFields_mode : field (jsrFields op mode low) 11 1 = mode := by
  apply BitVec.eq_of_getLsbD_eq; intro i hi
  rw [getLsbD_field, getLsbD_jsrFields, if_neg (by omega), if_pos (by omega)]
  simp [hi]

@[simp] theorem jsrFields_low : field (jsrFields op mode low) 0 11 = low := by
  apply BitVec.eq_of_getLsbD_eq; intro i hi
  rw [getLsbD_field, getLsbD_jsrFields, if_pos (by omega)]
  simp [hi]

end jsr

section trap
variable (op padding : BitVec 4) (low : BitVec 8)

@[simp] theorem trapFields_op : field (trapFields op padding low) 12 4 = op := by
  apply BitVec.eq_of_getLsbD_eq; intro i hi
  rw [getLsbD_field, getLsbD_trapFields, if_neg (by omega), if_neg (by omega)]
  simp [hi]

@[simp] theorem trapFields_padding : field (trapFields op padding low) 8 4 = padding := by
  apply BitVec.eq_of_getLsbD_eq; intro i hi
  rw [getLsbD_field, getLsbD_trapFields, if_neg (by omega), if_pos (by omega)]
  simp [hi]

@[simp] theorem trapFields_low : field (trapFields op padding low) 0 8 = low := by
  apply BitVec.eq_of_getLsbD_eq; intro i hi
  rw [getLsbD_field, getLsbD_trapFields, if_pos (by omega)]
  simp [hi]

end trap

/-! ### Register numbers and the low six bits -/

@[simp] theorem regBits_toFin (r : RegId) : (regBits r).toFin = r := rfl

@[simp] theorem regBits_of_toFin (b : BitVec 3) : regBits b.toFin = b := rfl

@[simp] theorem registerMode_mode (r : RegId) : (registerMode r).extractLsb' 5 1 = 0#1 := by revert r; decide
@[simp] theorem registerMode_padding (r : RegId) : (registerMode r).extractLsb' 3 2 = 0#2 := by revert r; decide
@[simp] theorem registerMode_sr2 (r : RegId) : (registerMode r).extractLsb' 0 3 = regBits r := by revert r; decide
@[simp] theorem immediateMode_mode (imm5 : BitVec 5) : (immediateMode imm5).extractLsb' 5 1 = 1#1 := by
  revert imm5; decide
@[simp] theorem immediateMode_imm5 (imm5 : BitVec 5) : (immediateMode imm5).extractLsb' 0 5 = imm5 := by
  revert imm5; decide

/-! ### Every Word is made of its fields -/

theorem eq_threeFields (ir : Word) : ir = threeFields (field ir 12 4) (field ir 9 3) (field ir 6 3) (field ir 0 6) := by
  apply BitVec.eq_of_getLsbD_eq; intro i hi
  rw [getLsbD_threeFields]
  split
  · rw [getLsbD_field]; simp [*]
  · split
    · rw [getLsbD_field]; simp [show i - 6 < 3 by omega, show 6 + (i - 6) = i by omega]
    · split
      · rw [getLsbD_field]; simp [show i - 9 < 3 by omega, show 9 + (i - 9) = i by omega]
      · rw [getLsbD_field]; simp [show i - 12 < 4 by omega, show 12 + (i - 12) = i by omega]

theorem eq_twoFields (ir : Word) : ir = twoFields (field ir 12 4) (field ir 9 3) (field ir 0 9) := by
  apply BitVec.eq_of_getLsbD_eq; intro i hi
  rw [getLsbD_twoFields]
  split
  · rw [getLsbD_field]; simp [*]
  · split
    · rw [getLsbD_field]; simp [show i - 9 < 3 by omega, show 9 + (i - 9) = i by omega]
    · rw [getLsbD_field]; simp [show i - 12 < 4 by omega, show 12 + (i - 12) = i by omega]

theorem eq_jsrFields (ir : Word) : ir = jsrFields (field ir 12 4) (field ir 11 1) (field ir 0 11) := by
  apply BitVec.eq_of_getLsbD_eq; intro i hi
  rw [getLsbD_jsrFields]
  split
  · rw [getLsbD_field]; simp [*]
  · split
    · rw [getLsbD_field]; simp [show i - 11 < 1 by omega, show 11 + (i - 11) = i by omega]
    · rw [getLsbD_field]; simp [show i - 12 < 4 by omega, show 12 + (i - 12) = i by omega]

theorem eq_trapFields (ir : Word) : ir = trapFields (field ir 12 4) (field ir 8 4) (field ir 0 8) := by
  apply BitVec.eq_of_getLsbD_eq; intro i hi
  rw [getLsbD_trapFields]
  split
  · rw [getLsbD_field]; simp [*]
  · split
    · rw [getLsbD_field]; simp [show i - 8 < 4 by omega, show 8 + (i - 8) = i by omega]
    · rw [getLsbD_field]; simp [show i - 12 < 4 by omega, show 12 + (i - 12) = i by omega]

/-! ### Trap vectors -/

/-- A vector outside the six stays the generic row. -/
theorem decodeTrap_unknown {v : BitVec 8} (h : v ∉ knownTrapVectors) : decodeTrap v = .trap v := by
  simp only [knownTrapVectors, List.mem_cons, List.not_mem_nil, or_false, not_or] at h
  simp [decodeTrap, h]

/-- What a vector names. -/
theorem decodeTrap_cases (v : BitVec 8) :
    (v ∉ knownTrapVectors ∧ decodeTrap v = .trap v) ∨ (v = 0x20#8 ∧ decodeTrap v = .getc) ∨
    (v = 0x21#8 ∧ decodeTrap v = .out) ∨ (v = 0x22#8 ∧ decodeTrap v = .puts) ∨ (v = 0x23#8 ∧ decodeTrap v = .in_) ∨
    (v = 0x24#8 ∧ decodeTrap v = .putsp) ∨ (v = 0x25#8 ∧ decodeTrap v = .halt) := by
  by_cases hv : v ∈ knownTrapVectors
  · simp only [knownTrapVectors, List.mem_cons, List.not_mem_nil, or_false] at hv
    rcases hv with rfl | rfl | rfl | rfl | rfl | rfl <;> decide
  · exact .inl ⟨hv, decodeTrap_unknown hv⟩

end Sys2Proof
end

