-- ==== Sys2Proof/Laws/State.lean ====
section
/-! SUPPORT. One lemma per field per update of `State`, and what each update leaves of the readings `fill`, `reg` and `word`.
All are true by rfl. -/

namespace Sys2Proof.Machine

variable (s : State)

/-! ### `State.setReg` -/

@[simp] theorem setReg_regs (r : RegId) (v : Word) : (s.setReg r v).regs = s.regs.set r v := rfl
@[simp] theorem setReg_pc (r : RegId) (v : Word) : (s.setReg r v).pc = s.pc := rfl
@[simp] theorem setReg_stackPointer (r : RegId) (v : Word) : (s.setReg r v).stackPointer = s.stackPointer := rfl
@[simp] theorem setReg_framePointer (r : RegId) (v : Word) : (s.setReg r v).framePointer = s.framePointer := rfl
@[simp] theorem setReg_cond (r : RegId) (v : Word) : (s.setReg r v).cond = s.cond := rfl
@[simp] theorem setReg_mem (r : RegId) (v : Word) : (s.setReg r v).mem = s.mem := rfl
@[simp] theorem setReg_start (r : RegId) (v : Word) : (s.setReg r v).start = s.start := rfl
@[simp] theorem setReg_loadEnd (r : RegId) (v : Word) : (s.setReg r v).loadEnd = s.loadEnd := rfl
@[simp] theorem setReg_atLineStart (r : RegId) (v : Word) : (s.setReg r v).atLineStart = s.atLineStart := rfl
@[simp] theorem setReg_out (r : RegId) (v : Word) : (s.setReg r v).out = s.out := rfl
@[simp] theorem setReg_run (r : RegId) (v : Word) : (s.setReg r v).run = s.run := rfl
@[simp] theorem setReg_input (r : RegId) (v : Word) : (s.setReg r v).input = s.input := rfl
@[simp] theorem setReg_inProgress (r : RegId) (v : Word) : (s.setReg r v).inProgress = s.inProgress := rfl
@[simp] theorem setReg_config (r : RegId) (v : Word) : (s.setReg r v).config = s.config := rfl
@[simp] theorem setReg_fill (r : RegId) (v : Word) : (s.setReg r v).fill = s.fill := rfl
@[simp] theorem setReg_word (r : RegId) (v : Word) (x : Word) : (s.setReg r v).word x = s.word x := rfl

/-! ### `State.setPc` -/

@[simp] theorem setPc_regs (p : Word) : (s.setPc p).regs = s.regs := rfl
@[simp] theorem setPc_pc (p : Word) : (s.setPc p).pc = p := rfl
@[simp] theorem setPc_stackPointer (p : Word) : (s.setPc p).stackPointer = s.stackPointer := rfl
@[simp] theorem setPc_framePointer (p : Word) : (s.setPc p).framePointer = s.framePointer := rfl
@[simp] theorem setPc_cond (p : Word) : (s.setPc p).cond = s.cond := rfl
@[simp] theorem setPc_mem (p : Word) : (s.setPc p).mem = s.mem := rfl
@[simp] theorem setPc_start (p : Word) : (s.setPc p).start = s.start := rfl
@[simp] theorem setPc_loadEnd (p : Word) : (s.setPc p).loadEnd = s.loadEnd := rfl
@[simp] theorem setPc_atLineStart (p : Word) : (s.setPc p).atLineStart = s.atLineStart := rfl
@[simp] theorem setPc_out (p : Word) : (s.setPc p).out = s.out := rfl
@[simp] theorem setPc_run (p : Word) : (s.setPc p).run = s.run := rfl
@[simp] theorem setPc_input (p : Word) : (s.setPc p).input = s.input := rfl
@[simp] theorem setPc_inProgress (p : Word) : (s.setPc p).inProgress = s.inProgress := rfl
@[simp] theorem setPc_config (p : Word) : (s.setPc p).config = s.config := rfl
@[simp] theorem setPc_fill (p : Word) : (s.setPc p).fill = s.fill := rfl
@[simp] theorem setPc_reg (p : Word) (q : RegId) : (s.setPc p).reg q = s.reg q := rfl
@[simp] theorem setPc_word (p : Word) (x : Word) : (s.setPc p).word x = s.word x := rfl

/-! ### `State.setWord` -/

@[simp] theorem setWord_regs (a v : Word) : (s.setWord a v).regs = s.regs := rfl
@[simp] theorem setWord_pc (a v : Word) : (s.setWord a v).pc = s.pc := rfl
@[simp] theorem setWord_stackPointer (a v : Word) : (s.setWord a v).stackPointer = s.stackPointer := rfl
@[simp] theorem setWord_framePointer (a v : Word) : (s.setWord a v).framePointer = s.framePointer := rfl
@[simp] theorem setWord_cond (a v : Word) : (s.setWord a v).cond = s.cond := rfl
@[simp] theorem setWord_mem (a v : Word) : (s.setWord a v).mem = writeCell s.fill s.mem a.toNat v := rfl
@[simp] theorem setWord_start (a v : Word) : (s.setWord a v).start = s.start := rfl
@[simp] theorem setWord_loadEnd (a v : Word) : (s.setWord a v).loadEnd = s.loadEnd := rfl
@[simp] theorem setWord_atLineStart (a v : Word) : (s.setWord a v).atLineStart = s.atLineStart := rfl
@[simp] theorem setWord_out (a v : Word) : (s.setWord a v).out = s.out := rfl
@[simp] theorem setWord_run (a v : Word) : (s.setWord a v).run = s.run := rfl
@[simp] theorem setWord_input (a v : Word) : (s.setWord a v).input = s.input := rfl
@[simp] theorem setWord_inProgress (a v : Word) : (s.setWord a v).inProgress = s.inProgress := rfl
@[simp] theorem setWord_config (a v : Word) : (s.setWord a v).config = s.config := rfl
@[simp] theorem setWord_fill (a v : Word) : (s.setWord a v).fill = s.fill := rfl
@[simp] theorem setWord_reg (a v : Word) (q : RegId) : (s.setWord a v).reg q = s.reg q := rfl

/-! ### `State.setRun` -/

@[simp] theorem setRun_regs (r : RunState) : (s.setRun r).regs = s.regs := rfl
@[simp] theorem setRun_pc (r : RunState) : (s.setRun r).pc = s.pc := rfl
@[simp] theorem setRun_stackPointer (r : RunState) : (s.setRun r).stackPointer = s.stackPointer := rfl
@[simp] theorem setRun_framePointer (r : RunState) : (s.setRun r).framePointer = s.framePointer := rfl
@[simp] theorem setRun_cond (r : RunState) : (s.setRun r).cond = s.cond := rfl
@[simp] theorem setRun_mem (r : RunState) : (s.setRun r).mem = s.mem := rfl
@[simp] theorem setRun_start (r : RunState) : (s.setRun r).start = s.start := rfl
@[simp] theorem setRun_loadEnd (r : RunState) : (s.setRun r).loadEnd = s.loadEnd := rfl
@[simp] theorem setRun_atLineStart (r : RunState) : (s.setRun r).atLineStart = s.atLineStart := rfl
@[simp] theorem setRun_out (r : RunState) : (s.setRun r).out = s.out := rfl
@[simp] theorem setRun_run (r : RunState) : (s.setRun r).run = r := rfl
@[simp] theorem setRun_input (r : RunState) : (s.setRun r).input = s.input := rfl
@[simp] theorem setRun_inProgress (r : RunState) : (s.setRun r).inProgress = s.inProgress := rfl
@[simp] theorem setRun_config (r : RunState) : (s.setRun r).config = s.config := rfl
@[simp] theorem setRun_fill (r : RunState) : (s.setRun r).fill = s.fill := rfl
@[simp] theorem setRun_reg (r : RunState) (q : RegId) : (s.setRun r).reg q = s.reg q := rfl
@[simp] theorem setRun_word (r : RunState) (x : Word) : (s.setRun r).word x = s.word x := rfl

/-! ### `State.setInput` -/

@[simp] theorem setInput_regs (cs : List Byte) : (s.setInput cs).regs = s.regs := rfl
@[simp] theorem setInput_pc (cs : List Byte) : (s.setInput cs).pc = s.pc := rfl
@[simp] theorem setInput_stackPointer (cs : List Byte) : (s.setInput cs).stackPointer = s.stackPointer := rfl
@[simp] theorem setInput_framePointer (cs : List Byte) : (s.setInput cs).framePointer = s.framePointer := rfl
@[simp] theorem setInput_cond (cs : List Byte) : (s.setInput cs).cond = s.cond := rfl
@[simp] theorem setInput_mem (cs : List Byte) : (s.setInput cs).mem = s.mem := rfl
@[simp] theorem setInput_start (cs : List Byte) : (s.setInput cs).start = s.start := rfl
@[simp] theorem setInput_loadEnd (cs : List Byte) : (s.setInput cs).loadEnd = s.loadEnd := rfl
@[simp] theorem setInput_atLineStart (cs : List Byte) : (s.setInput cs).atLineStart = s.atLineStart := rfl
@[simp] theorem setInput_out (cs : List Byte) : (s.setInput cs).out = s.out := rfl
@[simp] theorem setInput_run (cs : List Byte) : (s.setInput cs).run = s.run := rfl
@[simp] theorem setInput_input (cs : List Byte) : (s.setInput cs).input = cs := rfl
@[simp] theorem setInput_inProgress (cs : List Byte) : (s.setInput cs).inProgress = s.inProgress := rfl
@[simp] theorem setInput_config (cs : List Byte) : (s.setInput cs).config = s.config := rfl
@[simp] theorem setInput_fill (cs : List Byte) : (s.setInput cs).fill = s.fill := rfl
@[simp] theorem setInput_reg (cs : List Byte) (q : RegId) : (s.setInput cs).reg q = s.reg q := rfl
@[simp] theorem setInput_word (cs : List Byte) (x : Word) : (s.setInput cs).word x = s.word x := rfl

/-! ### `State.setProgress` -/

@[simp] theorem setProgress_regs (p : Option Progress) : (s.setProgress p).regs = s.regs := rfl
@[simp] theorem setProgress_pc (p : Option Progress) : (s.setProgress p).pc = s.pc := rfl
@[simp] theorem setProgress_stackPointer (p : Option Progress) : (s.setProgress p).stackPointer = s.stackPointer := rfl
@[simp] theorem setProgress_framePointer (p : Option Progress) : (s.setProgress p).framePointer = s.framePointer := rfl
@[simp] theorem setProgress_cond (p : Option Progress) : (s.setProgress p).cond = s.cond := rfl
@[simp] theorem setProgress_mem (p : Option Progress) : (s.setProgress p).mem = s.mem := rfl
@[simp] theorem setProgress_start (p : Option Progress) : (s.setProgress p).start = s.start := rfl
@[simp] theorem setProgress_loadEnd (p : Option Progress) : (s.setProgress p).loadEnd = s.loadEnd := rfl
@[simp] theorem setProgress_atLineStart (p : Option Progress) : (s.setProgress p).atLineStart = s.atLineStart := rfl
@[simp] theorem setProgress_out (p : Option Progress) : (s.setProgress p).out = s.out := rfl
@[simp] theorem setProgress_run (p : Option Progress) : (s.setProgress p).run = s.run := rfl
@[simp] theorem setProgress_input (p : Option Progress) : (s.setProgress p).input = s.input := rfl
@[simp] theorem setProgress_inProgress (p : Option Progress) : (s.setProgress p).inProgress = p := rfl
@[simp] theorem setProgress_config (p : Option Progress) : (s.setProgress p).config = s.config := rfl
@[simp] theorem setProgress_fill (p : Option Progress) : (s.setProgress p).fill = s.fill := rfl
@[simp] theorem setProgress_reg (p : Option Progress) (q : RegId) : (s.setProgress p).reg q = s.reg q := rfl
@[simp] theorem setProgress_word (p : Option Progress) (x : Word) : (s.setProgress p).word x = s.word x := rfl

/-! ### `State.setcc` -/

@[simp] theorem setcc_regs (v : Word) : (s.setcc v).regs = s.regs := rfl
@[simp] theorem setcc_pc (v : Word) : (s.setcc v).pc = s.pc := rfl
@[simp] theorem setcc_stackPointer (v : Word) : (s.setcc v).stackPointer = s.stackPointer := rfl
@[simp] theorem setcc_framePointer (v : Word) : (s.setcc v).framePointer = s.framePointer := rfl
@[simp] theorem setcc_cond (v : Word) : (s.setcc v).cond = condOf v := rfl
@[simp] theorem setcc_mem (v : Word) : (s.setcc v).mem = s.mem := rfl
@[simp] theorem setcc_start (v : Word) : (s.setcc v).start = s.start := rfl
@[simp] theorem setcc_loadEnd (v : Word) : (s.setcc v).loadEnd = s.loadEnd := rfl
@[simp] theorem setcc_atLineStart (v : Word) : (s.setcc v).atLineStart = s.atLineStart := rfl
@[simp] theorem setcc_out (v : Word) : (s.setcc v).out = s.out := rfl
@[simp] theorem setcc_run (v : Word) : (s.setcc v).run = s.run := rfl
@[simp] theorem setcc_input (v : Word) : (s.setcc v).input = s.input := rfl
@[simp] theorem setcc_inProgress (v : Word) : (s.setcc v).inProgress = s.inProgress := rfl
@[simp] theorem setcc_config (v : Word) : (s.setcc v).config = s.config := rfl
@[simp] theorem setcc_fill (v : Word) : (s.setcc v).fill = s.fill := rfl
@[simp] theorem setcc_reg (v : Word) (q : RegId) : (s.setcc v).reg q = s.reg q := rfl
@[simp] theorem setcc_word (v : Word) (x : Word) : (s.setcc v).word x = s.word x := rfl

/-! ### `State.emit` -/

@[simp] theorem emit_regs (c : Byte) : (s.emit c).regs = s.regs := rfl
@[simp] theorem emit_pc (c : Byte) : (s.emit c).pc = s.pc := rfl
@[simp] theorem emit_stackPointer (c : Byte) : (s.emit c).stackPointer = s.stackPointer := rfl
@[simp] theorem emit_framePointer (c : Byte) : (s.emit c).framePointer = s.framePointer := rfl
@[simp] theorem emit_cond (c : Byte) : (s.emit c).cond = s.cond := rfl
@[simp] theorem emit_mem (c : Byte) : (s.emit c).mem = s.mem := rfl
@[simp] theorem emit_start (c : Byte) : (s.emit c).start = s.start := rfl
@[simp] theorem emit_loadEnd (c : Byte) : (s.emit c).loadEnd = s.loadEnd := rfl
@[simp] theorem emit_atLineStart (c : Byte) : (s.emit c).atLineStart = (c == 0x0A#8) := rfl
@[simp] theorem emit_out (c : Byte) : (s.emit c).out = s.out ++ [c] := rfl
@[simp] theorem emit_run (c : Byte) : (s.emit c).run = s.run := rfl
@[simp] theorem emit_input (c : Byte) : (s.emit c).input = s.input := rfl
@[simp] theorem emit_inProgress (c : Byte) : (s.emit c).inProgress = s.inProgress := rfl
@[simp] theorem emit_config (c : Byte) : (s.emit c).config = s.config := rfl
@[simp] theorem emit_fill (c : Byte) : (s.emit c).fill = s.fill := rfl
@[simp] theorem emit_reg (c : Byte) (q : RegId) : (s.emit c).reg q = s.reg q := rfl
@[simp] theorem emit_word (c : Byte) (x : Word) : (s.emit c).word x = s.word x := rfl

end Sys2Proof.Machine
end

