-- ==== Sys2Proof/Laws/Memory.lean ====
section
/-! SUPPORT. The laws of memory: a read after a write, the canonical form kept by every operation, a loaded image reads
back, and memories in canonical form that read alike are equal. -/

namespace Sys2Proof.Machine

variable {fill : Nat → Word}

theorem readCell_of_not_listed {mem : List Cell} {a : Nat} (h : ∀ c ∈ mem, c.1 ≠ a) :
    readCell fill mem a = fill a := by
  induction mem with
  | nil => rfl
  | cons c rest ih =>
    have hc : a ≠ c.1 := fun e => h c (by simp) e.symm
    simp only [readCell, hc, if_false]
    exact ih fun d hd => h d (by simp [hd])

theorem readCell_filter_other {mem : List Cell} {a b : Nat} (h : a ≠ b) :
    readCell fill (mem.filter (fun c => c.1 ≠ b)) a = readCell fill mem a := by
  induction mem with
  | nil => rfl
  | cons c rest ih =>
    by_cases hc : c.1 = b
    · have : a ≠ c.1 := by omega
      simp [hc, readCell, h, ← ih]
    · simp only [List.filter_cons, ne_eq, hc, not_false_eq_true, decide_true, if_true, readCell]
      simp only [ne_eq] at ih
      rw [ih]

theorem mem_insertCell {c d : Cell} {mem : List Cell} : d ∈ insertCell c mem ↔ d = c ∨ d ∈ mem := by
  induction mem with
  | nil => simp [insertCell]
  | cons e rest ih =>
    by_cases h : c.1 < e.1
    · simp [insertCell, h]
    · simp only [insertCell, h, if_false, List.mem_cons, ih]
      tauto

theorem readCell_insert_same {mem : List Cell} {a : Nat} {v : Word} (h : ∀ c ∈ mem, c.1 ≠ a) :
    readCell fill (insertCell (a, v) mem) a = v := by
  induction mem with
  | nil => simp [insertCell, readCell]
  | cons e rest ih =>
    have he : a ≠ e.1 := fun x => h e (by simp) x.symm
    by_cases hlt : a < e.1
    · simp [insertCell, hlt, readCell]
    · simp only [insertCell, hlt, if_false, readCell, he]
      exact ih fun d hd => h d (by simp [hd])

theorem readCell_insert_other {mem : List Cell} {a b : Nat} {v : Word} (h : a ≠ b) :
    readCell fill (insertCell (b, v) mem) a = readCell fill mem a := by
  induction mem with
  | nil => simp [insertCell, readCell, h]
  | cons e rest ih =>
    by_cases hlt : b < e.1
    · simp [insertCell, hlt, readCell, h]
    · simp only [insertCell, hlt, if_false, readCell, ih]

/-- A read after a write to the same address gives the value written. -/
theorem readCell_writeCell_same (mem : List Cell) (a : Nat) (v : Word) :
    readCell fill (writeCell fill mem a v) a = v := by
  have absent : ∀ c ∈ mem.filter (fun c => c.1 ≠ a), c.1 ≠ a := fun c hc => by simpa using (List.mem_filter.mp hc).2
  by_cases h : v = fill a
  · simp only [writeCell, h, if_true]
    exact readCell_of_not_listed absent
  · simp only [writeCell, h, if_false]
    exact readCell_insert_same absent

/-- A write leaves every other address alone. -/
theorem readCell_writeCell_other (mem : List Cell) {a b : Nat} (v : Word) (h : a ≠ b) :
    readCell fill (writeCell fill mem b v) a = readCell fill mem a := by
  by_cases hv : v = fill b
  · simp only [writeCell, hv, if_true]
    exact readCell_filter_other h
  · simp only [writeCell, hv, if_false]
    rw [readCell_insert_other h, readCell_filter_other h]

theorem pairwise_insertCell {c : Cell} {mem : List Cell} (h : mem.Pairwise (fun d e => d.1 < e.1))
    (absent : ∀ d ∈ mem, d.1 ≠ c.1) : (insertCell c mem).Pairwise (fun d e => d.1 < e.1) := by
  induction mem with
  | nil => simp [insertCell]
  | cons e rest ih =>
    obtain ⟨he, hrest⟩ := List.pairwise_cons.mp h
    by_cases hlt : c.1 < e.1
    · simp only [insertCell, hlt, if_true, List.pairwise_cons]
      refine ⟨fun d hd => ?_, he, hrest⟩
      rcases List.mem_cons.mp hd with rfl | hd
      · exact hlt
      · exact hlt.trans (he d hd)
    · have hec : e.1 < c.1 := by have := absent e (by simp); omega
      simp only [insertCell, hlt, if_false, List.pairwise_cons]
      refine ⟨fun d hd => ?_, ih hrest fun d hd => absent d (by simp [hd])⟩
      rcases mem_insertCell.mp hd with rfl | hd
      · exact hec
      · exact he d hd

/-- A write inside the address space keeps the canonical form. -/
theorem writeCell_wf {mem : List Cell} {a : Nat} {v : Word} (ha : a < addressSpace) (h : MemoryWf fill mem) :
    MemoryWf fill (writeCell fill mem a v) := by
  have absent : ∀ c ∈ mem.filter (fun c => c.1 ≠ a), c.1 ≠ a := fun c hc => by simpa using (List.mem_filter.mp hc).2
  have kept : MemoryWf fill (mem.filter (fun c => c.1 ≠ a)) :=
    ⟨h.1.filter _, fun c hc => h.2 c (List.mem_filter.mp hc).1⟩
  by_cases hv : v = fill a
  · simpa only [writeCell, hv, if_true] using kept
  · simp only [writeCell, hv, if_false]
    refine ⟨pairwise_insertCell kept.1 absent, fun c hc => ?_⟩
    rcases mem_insertCell.mp hc with rfl | hc
    · exact ⟨ha, hv⟩
    · exact kept.2 c hc

theorem mem_imageCells {a : Nat} {image : List Word} {c : Cell} (h : c ∈ imageCells fill a image) :
    a ≤ c.1 ∧ c.1 < a + image.length ∧ c.2 ≠ fill c.1 := by
  induction image generalizing a with
  | nil => simp [imageCells] at h
  | cons w rest ih =>
    by_cases hw : w = fill a
    · simp only [imageCells, hw, if_true] at h
      obtain ⟨h1, h2, h3⟩ := ih h
      simp only [List.length_cons]
      exact ⟨by omega, by omega, h3⟩
    · simp only [imageCells, hw, if_false] at h
      simp only [List.length_cons]
      rcases List.mem_cons.mp h with rfl | h
      · exact ⟨Nat.le_refl _, by omega, hw⟩
      · obtain ⟨h1, h2, h3⟩ := ih h
        exact ⟨by omega, by omega, h3⟩

/-- A loaded image that fits the address space is in canonical form. -/
theorem imageCells_wf {a : Nat} {image : List Word} (h : a + image.length ≤ addressSpace) :
    MemoryWf fill (imageCells fill a image) := by
  refine ⟨?_, fun c hc => ?_⟩
  · induction image generalizing a with
    | nil => simp [imageCells]
    | cons w rest ih =>
      have hrest := ih (a := a + 1) (by simp only [List.length_cons] at h; omega)
      by_cases hw : w = fill a
      · simpa only [imageCells, hw, if_true] using hrest
      · simp only [imageCells, hw, if_false, List.pairwise_cons]
        exact ⟨fun d hd => by have := (mem_imageCells hd).1; omega, hrest⟩
  · obtain ⟨_, h2, h3⟩ := mem_imageCells hc
    exact ⟨by omega, h3⟩

/-- A loaded image reads back, and every other address reads as the fill. -/
theorem readCell_imageCells (a : Nat) (image : List Word) (b : Nat) :
    readCell fill (imageCells fill a image) b =
      if h : a ≤ b ∧ b < a + image.length then image[b - a]'(by omega) else fill b := by
  induction image generalizing a with
  | nil =>
    simp [imageCells, readCell]
  | cons w rest ih =>
    have step : readCell fill (imageCells fill a (w :: rest)) b =
        if b = a then w else readCell fill (imageCells fill (a + 1) rest) b := by
      by_cases hw : w = fill a
      · by_cases hb : b = a
        · subst hb
          simp only [imageCells, hw, if_true]
          exact readCell_of_not_listed fun c hc => by have := (mem_imageCells hc).1; omega
        · simp [imageCells, hw, hb]
      · simp [imageCells, hw, readCell]
    rw [step, ih (a + 1)]
    by_cases hb : b = a
    · subst hb
      simp
    · by_cases hin : a + 1 ≤ b ∧ b < a + 1 + rest.length
      · have hin' : a ≤ b ∧ b < a + (w :: rest).length := by simp only [List.length_cons]; omega
        have e : b - a = (b - (a + 1)) + 1 := by omega
        rw [if_neg hb, dif_pos hin, dif_pos hin']
        simp only [e, List.getElem_cons_succ]
      · have hin' : ¬ (a ≤ b ∧ b < a + (w :: rest).length) := by simp only [List.length_cons]; omega
        simp only [hb, hin, hin', if_false, dite_false]

/-- Two memories in canonical form that read alike at every address are the same list. -/
theorem memory_ext {m n : List Cell} (hm : MemoryWf fill m) (hn : MemoryWf fill n)
    (h : ∀ a, readCell fill m a = readCell fill n a) : m = n := by
  have listed : ∀ {l : List Cell}, MemoryWf fill l → ∀ c : Cell,
      c ∈ l ↔ (readCell fill l c.1 = c.2 ∧ c.2 ≠ fill c.1) := by
    intro l hl c
    induction l with
    | nil => simp only [List.not_mem_nil, readCell, false_iff, not_and, not_not]; exact fun e => e.symm
    | cons d rest ih =>
      obtain ⟨hd, hrest⟩ := List.pairwise_cons.mp hl.1
      have ih := ih ⟨hrest, fun x hx => hl.2 x (by simp [hx])⟩
      by_cases hc : c.1 = d.1
      · have notin : c ∉ rest := fun hx => by have := hd c hx; omega
        have hdw := (hl.2 d (by simp)).2
        simp only [List.mem_cons, notin, or_false, readCell, hc, if_true]
        refine ⟨?_, fun e => Prod.ext hc e.1.symm⟩
        rintro rfl
        exact ⟨rfl, hdw⟩
      · have : c ≠ d := fun e => hc (by rw [e])
        simp only [List.mem_cons, this, false_or, readCell, hc, if_false, ih]
  have nodup : ∀ {l : List Cell}, MemoryWf fill l → l.Nodup := fun hl => hl.1.imp fun hlt e => by
    rw [e] at hlt; omega
  refine List.Perm.eq_of_pairwise ?_ hm.1 hn.1
    ((List.perm_ext_iff_of_nodup (nodup hm) (nodup hn)).mpr fun c => by rw [listed hm, listed hn, h])
  intro a b _ _ hab hba
  omega

end Sys2Proof.Machine
end

