-- ==== Sys2Proof/Laws/Ops.lean ====
section
/-! SUPPORT. One lemma per shared operation: everything it can do. Proofs cite these and do not unfold the operations. -/

namespace Sys2Proof.Machine

variable {s t : State}

/-! ### Registers and memory -/

@[simp] theorem reg_setReg_same (r : RegId) (v : Word) : (s.setReg r v).reg r = v := by
  simp [State.reg, State.setReg]

theorem reg_setReg_other {r q : RegId} (v : Word) (h : q ≠ r) : (s.setReg r v).reg q = s.reg q := by
  have : r.val ≠ q.val := fun e => h (Fin.ext e.symm)
  simp [State.reg, State.setReg, this]

theorem reg_setReg (r q : RegId) (v : Word) : (s.setReg r v).reg q = if q = r then v else s.reg q := by
  by_cases h : q = r
  · subst h; simp
  · simp [h, reg_setReg_other v h]

@[simp] theorem word_setWord_same (a v : Word) : (s.setWord a v).word a = v :=
  readCell_writeCell_same _ _ _

theorem word_setWord_other {a b : Word} (v : Word) (h : b ≠ a) : (s.setWord a v).word b = s.word b :=
  readCell_writeCell_other _ _ fun e => h (BitVec.eq_of_toNat_eq e)

/-! ### Flags -/

theorem condOf_mem (v : Word) : condOf v ∈ [0b001#3, 0b010#3, 0b100#3] := by
  unfold condOf; split
  · simp
  · split <;> simp

/-- The flags of `condOf` show the sign of the Word. -/
theorem flagsShow_condOf {v : Word} (h : t.cond = condOf v) : FlagsShow v t := by
  have msb : v.msb = true ↔ v.toInt < 0 := by rw [BitVec.msb_eq_toInt]; simp
  have zero : v = 0#16 ↔ v.toInt = 0 := by
    rw [← BitVec.toInt_inj]; simp
  unfold FlagsShow condOf at *
  rw [h]
  by_cases hm : v.msb = true
  · have := msb.mp hm
    simp [hm]; omega
  · have hn : ¬ v.toInt < 0 := fun e => hm (msb.mpr e)
    by_cases hz : v = 0#16
    · have := zero.mp hz
      simp [hz]
    · have : ¬ v.toInt = 0 := fun e => hz (zero.mpr e)
      simp [hm, hz]; omega

/-! ### The accessibility check -/

theorem checkAddr_none {a : Word} : checkAddr a s = none ↔ Accessible a s := by
  unfold checkAddr Accessible
  simp only [BitVec.lt_def]
  split
  · simp; omega
  · split
    · simp; omega
    · simp; omega

theorem checkAddr_some {a : Word} {kind : ErrorKind} : checkAddr a s = some kind ↔ AccessError a kind s := by
  unfold checkAddr AccessError
  simp only [BitVec.lt_def]
  split
  · cases kind <;> simp <;> omega
  · split
    · cases kind <;> simp <;> omega
    · simp; omega

/-- Every address is accessible or has an access error. -/
theorem access_cases (a : Word) (s : State) : Accessible a s ∨ ∃ kind, AccessError a kind s := by
  cases h : checkAddr a s with
  | none => exact .inl (checkAddr_none.mp h)
  | some kind => exact .inr ⟨kind, checkAddr_some.mp h⟩

theorem memRead_ok {a : Word} (h : Accessible a s) : memRead a s = .ok (s.word a) := by
  simp [memRead, checkAddr_none.mpr h]

theorem memRead_error {a : Word} {kind : ErrorKind} (h : AccessError a kind s) : memRead a s = .error kind := by
  simp [memRead, checkAddr_some.mpr h]

theorem memWrite_go {a v : Word} (h : Accessible a s) : memWrite a v s = .go (s.setWord a v) := by
  simp [memWrite, checkAddr_none.mpr h]

theorem memWrite_raise {a v : Word} {kind : ErrorKind} (h : AccessError a kind s) :
    memWrite a v s = .raise kind s := by
  simp [memWrite, checkAddr_some.mpr h]

/-! ### Flow -/

@[simp] theorem andThen_go (next : State → Flow) : (Flow.go s).andThen next = next s := rfl
@[simp] theorem andThen_raise (kind : ErrorKind) (next : State → Flow) :
    (Flow.raise kind s).andThen next = .raise kind s := rfl
@[simp] theorem finish_go : (Flow.go s).finish = .next s := rfl
@[simp] theorem finish_raise (kind : ErrorKind) :
    (Flow.raise kind s).finish = .next (s.setRun (.faulted kind)) := rfl

/-- The state a rule has reached. -/
def Flow.state : Flow → State
  | .go s => s
  | .raise _ s => s

/-- The run state a finished rule leaves. -/
def Flow.runOf : Flow → RunState
  | .go s => s.run
  | .raise kind _ => .faulted kind

/-- A finished rule always has a next state: the one it reached, with the run state it leaves. -/
theorem finish_eq (f : Flow) : f.finish = .next (f.state.setRun f.runOf) := by
  cases f <;> rfl

/-! ### The console -/

/-- `t` is `s` but for the console's fields and an unfinished instruction. -/
def OnlyPrints (s t : State) : Prop :=
  t = { s with out := t.out, atLineStart := t.atLineStart, inProgress := t.inProgress }

theorem OnlyPrints.refl (s : State) : OnlyPrints s s := rfl

theorem OnlyPrints.trans {u : State} (h : OnlyPrints s t) (k : OnlyPrints t u) : OnlyPrints s u := by
  unfold OnlyPrints at *
  rw [k, h]

/-- What a printing rule can do: it only prints, what it prints is appended, 7-bit and shown, the newline flag stays true to
the output, and it raises nothing but a memory check's error or `Unimplemented`. -/
structure Prints (s : State) (f : Flow) : Prop where
  only      : OnlyPrints s f.state
  appended  : s.out <+: f.state.out
  printed   : (∀ c ∈ s.out, c ≤ 0x7F#8 ∧ c ≠ 0x0D#8) → ∀ c ∈ f.state.out, c ≤ 0x7F#8 ∧ c ≠ 0x0D#8
  lineStart : s.atLineStart = endsLine s.out → f.state.atLineStart = endsLine f.state.out
  raised    : ∀ kind t, f = .raise kind t →
    t.inProgress = s.inProgress ∧ (kind = .addressTooLow ∨ kind = .addressTooHigh ∨ kind = .unimplemented)

theorem Prints.andThen {f : Flow} {next : State → Flow} (hf : Prints s f)
    (hn : ∀ t, f = .go t → Prints t (next t))
    (hp : ∀ t, f = .go t → t.inProgress = s.inProgress) : Prints s (f.andThen next) := by
  cases f with
  | raise kind t => exact hf
  | go t =>
    have h := hn t rfl
    refine ⟨hf.only.trans h.only, hf.appended.trans h.appended, fun p => h.printed (hf.printed p),
      fun p => h.lineStart (hf.lineStart p), fun kind u e => ?_⟩
    obtain ⟨h1, h2⟩ := h.raised kind u e
    exact ⟨h1.trans (hp t rfl), h2⟩

theorem prints_go : Prints s (.go s) :=
  ⟨.refl s, List.prefix_refl _, id, id, fun _ _ e => by cases e⟩

theorem prints_raise {kind : ErrorKind} (h : kind = .addressTooLow ∨ kind = .addressTooHigh ∨ kind = .unimplemented) :
    Prints s (.raise kind s) :=
  ⟨.refl s, List.prefix_refl _, id, id, fun _ _ e => by cases e; exact ⟨rfl, h⟩⟩

theorem prints_unfinished (p : Option Progress) : Prints s (.go (s.setProgress p)) :=
  ⟨rfl, List.prefix_refl _, id, id, fun _ _ e => by cases e⟩

theorem accessError_kind {a : Word} {kind : ErrorKind} (h : AccessError a kind s) :
    kind = .addressTooLow ∨ kind = .addressTooHigh ∨ kind = .unimplemented := by
  rcases h with ⟨rfl, _⟩ | ⟨rfl, _⟩ <;> simp

theorem shown_cases (c : Byte) (h : c ≤ 0x7F#8) : shown c ≤ 0x7F#8 ∧ shown c ≠ 0x0D#8 := by
  unfold shown; split
  · simp
  · exact ⟨h, by assumption⟩

theorem endsLine_append (out : List Byte) (c : Byte) : endsLine (out ++ [c]) = (c == 0x0A#8) := by
  simp [endsLine]

theorem printChar_go {c : Byte} (h : c ≤ 0x7F#8) : printChar c s = .go (s.emit (shown c)) := by
  have : ¬ 0x7F#8 < c := BitVec.not_lt.mpr h
  simp [printChar, this]

theorem printChar_raise {c : Byte} (h : 0x7F#8 < c) : printChar c s = .raise .unimplemented s := by
  simp [printChar, h]

theorem prints_printChar (c : Byte) : Prints s (printChar c s) := by
  by_cases h : 0x7F#8 < c
  · rw [printChar_raise h]; exact prints_raise (by simp)
  · have h := BitVec.not_lt.mp h
    rw [printChar_go h]
    refine ⟨rfl, List.prefix_append _ _, fun p d hd => ?_, fun _ => (endsLine_append _ _).symm, fun _ _ e => by cases e⟩
    rcases List.mem_append.mp hd with hd | hd
    · exact p d hd
    · simp only [List.mem_singleton] at hd
      subst hd
      exact shown_cases c h

theorem printChar_keeps_progress {c : Byte} (h : printChar c s = .go t) : t.inProgress = s.inProgress := by
  unfold printChar at h; split at h <;> cases h; rfl

theorem ensureLineStart_eq : ensureLineStart s = .go (if s.atLineStart then s else s.emit 0x0A#8) := by
  unfold ensureLineStart
  split
  · rfl
  · exact printChar_go (by decide)

theorem prints_ensureLineStart : Prints s (ensureLineStart s) := by
  unfold ensureLineStart; split
  · exact prints_go
  · exact prints_printChar _

theorem ensureLineStart_keeps_progress (h : ensureLineStart s = .go t) : t.inProgress = s.inProgress := by
  rw [ensureLineStart_eq] at h
  cases h
  split <;> rfl

/-- The loop of PUTS: what one cell does. -/
theorem putsLoop_succ (n : Nat) (a : Word) (s : State) : putsLoop (n + 1) a s =
    match memRead a s with
    | .error kind => .raise kind s
    | .ok w =>
      if w = 0x0000#16 then .go s
      else if 0x007F#16 < w then .raise .unimplemented s
      else (printChar (w.extractLsb' 0 8) s).andThen (putsLoop n (a + 1)) := by
  rfl

/-- The loop of PUTSP: what one cell does. -/
theorem putspLoop_succ (n : Nat) (a : Word) (s : State) : putspLoop (n + 1) a s =
    match memRead a s with
    | .error kind => .raise kind s
    | .ok w =>
      if w.extractLsb' 0 8 = 0x00#8 then .go s
      else (printChar (w.extractLsb' 0 8) s).andThen fun t =>
        if w.extractLsb' 8 8 = 0x00#8 then .go t
        else (printChar (w.extractLsb' 8 8) t).andThen (putspLoop n (a + 1)) := by
  rfl

theorem prints_putsLoop (n : Nat) (a : Word) (s : State) : Prints s (putsLoop n a s) := by
  induction n generalizing a s with
  | zero => exact prints_unfinished _
  | succ n ih =>
    rw [putsLoop_succ]
    rcases access_cases a s with h | ⟨kind, h⟩
    · simp only [memRead_ok h]
      split
      · exact prints_go
      · split
        · exact prints_raise (by simp)
        · exact (prints_printChar _).andThen (fun t _ => ih _ t) fun t h => printChar_keeps_progress h
    · simp only [memRead_error h]
      exact prints_raise (accessError_kind h)

theorem prints_putspLoop (n : Nat) (a : Word) (s : State) : Prints s (putspLoop n a s) := by
  induction n generalizing a s with
  | zero => exact prints_unfinished _
  | succ n ih =>
    rw [putspLoop_succ]
    rcases access_cases a s with h | ⟨kind, h⟩
    · simp only [memRead_ok h]
      split
      · exact prints_go
      · refine (prints_printChar _).andThen (fun t _ => ?_) fun t h => printChar_keeps_progress h
        split
        · exact prints_go
        · exact (prints_printChar _).andThen (fun u _ => ih _ u) fun u h => printChar_keeps_progress h
    · simp only [memRead_error h]
      exact prints_raise (accessError_kind h)

/-- An offset of `k + 1` cells is one cell and then `k`. -/
theorem add_one_ofNat (a : Word) (k : Nat) : a + 1 + BitVec.ofNat 16 k = a + BitVec.ofNat 16 (k + 1) := by
  rw [BitVec.add_assoc, Nat.add_comm k 1, BitVec.ofNat_add]
  rfl

/-- The loop of PUTS leaves the string unfinished only over cells that each hold a 7-bit character. -/
theorem putsLoop_unfinished (n : Nat) (a : Word) (s : State) : (putsLoop n a s).state.inProgress = s.inProgress ∨
    ∀ k < n, s.word (a + BitVec.ofNat 16 k) ≤ 0x007F#16 := by
  induction n generalizing a s with
  | zero => exact .inr fun k h => absurd h (Nat.not_lt_zero k)
  | succ n ih =>
    rw [putsLoop_succ]
    rcases access_cases a s with h | ⟨kind, h⟩
    · simp only [memRead_ok h]
      split
      · exact .inl rfl
      · split
        · exact .inl rfl
        · have hw : s.word a ≤ 0x007F#16 := BitVec.not_lt.mp ‹_›
          have h7 : (s.word a).extractLsb' 0 8 ≤ 0x7F#8 := by
            rw [BitVec.le_def] at hw ⊢
            simp at hw ⊢
            omega
          rw [printChar_go h7, andThen_go]
          refine (ih (a + 1) (s.emit _)).imp_right fun hr k hk => ?_
          match k with
          | 0 => simpa using hw
          | k + 1 => rw [← add_one_ofNat]; exact hr k (Nat.lt_of_succ_lt_succ hk)
    · simp only [memRead_error h]
      exact .inl rfl

/-- The loop of PUTSP leaves the string unfinished only over cells whose high byte is a 7-bit character. -/
theorem putspLoop_unfinished (n : Nat) (a : Word) (s : State) : (putspLoop n a s).state.inProgress = s.inProgress ∨
    ∀ k < n, (s.word (a + BitVec.ofNat 16 k)).extractLsb' 8 8 ≤ 0x7F#8 := by
  induction n generalizing a s with
  | zero => exact .inr fun k h => absurd h (Nat.not_lt_zero k)
  | succ n ih =>
    rw [putspLoop_succ]
    rcases access_cases a s with h | ⟨kind, h⟩
    · simp only [memRead_ok h]
      split
      · exact .inl rfl
      · by_cases hlo : 0x7F#8 < (s.word a).extractLsb' 0 8
        · rw [printChar_raise hlo]; exact .inl rfl
        · rw [printChar_go (BitVec.not_lt.mp hlo), andThen_go]
          split
          · exact .inl rfl
          · by_cases hhi : 0x7F#8 < (s.word a).extractLsb' 8 8
            · rw [printChar_raise hhi]; exact .inl rfl
            · have hhi := BitVec.not_lt.mp hhi
              rw [printChar_go hhi, andThen_go]
              refine (ih (a + 1) ((s.emit _).emit _)).imp_right fun hr k hk => ?_
              match k with
              | 0 => simpa using hhi
              | k + 1 => rw [← add_one_ofNat]; exact hr k (Nat.lt_of_succ_lt_succ hk)
    · simp only [memRead_error h]
      exact .inl rfl

/-- IN's prompt never raises: its characters are 7-bit. -/
theorem printAll_eq (text : List (BitVec 7)) (s : State) : printAll text s =
    .go { s with out := s.out ++ shownText text,
                 atLineStart := if text = [] then s.atLineStart else endsLine (s.out ++ shownText text) } := by
  induction text generalizing s with
  | nil => simp [printAll, shownText]
  | cons ch rest ih =>
    have h7 : ch.setWidth 8 ≤ 0x7F#8 := by
      rw [BitVec.le_def, BitVec.toNat_setWidth]
      have := ch.isLt
      simp; omega
    rw [printAll, printChar_go h7, andThen_go, ih]
    by_cases hr : rest = []
    · subst hr
      simp [State.emit, shownText, endsLine_append]
    · simp [State.emit, shownText, hr]

/-! ### The fetch -/

theorem fetch_of_accessError {kind : ErrorKind} (h : AccessError s.pc kind s) : fetch s = .raise kind s := by
  simp [fetch, checkAddr_some.mpr h]

/-- What the fetch can do. -/
theorem fetch_cases (s : State) :
    (∃ kind, AccessError s.pc kind s ∧ fetch s = .raise kind s) ∨
    (Accessible s.pc s ∧ s.word s.pc = s.config.sentinelBelow ∧
      fetch s = .raise .addressTooLow (s.setPc (s.pc + 1))) ∨
    (Accessible s.pc s ∧ s.word s.pc ≠ s.config.sentinelBelow ∧ s.word s.pc = s.config.sentinelAbove ∧
      fetch s = .raise .addressTooHigh (s.setPc (s.pc + 1))) ∨
    (Accessible s.pc s ∧ s.word s.pc ≠ s.config.sentinelBelow ∧ s.word s.pc ≠ s.config.sentinelAbove ∧
      fetch s = .word (s.word s.pc) (s.setPc (s.pc + 1))) := by
  rcases access_cases s.pc s with h | ⟨kind, h⟩
  · have hc := checkAddr_none.mpr h
    by_cases hb : s.word s.pc = s.config.sentinelBelow
    · exact .inr (.inl ⟨h, hb, by simp [fetch, hc, sentinelGuard, hb]⟩)
    · by_cases ha : s.word s.pc = s.config.sentinelAbove
      · exact .inr (.inr (.inl ⟨h, hb, ha, by simp [fetch, hc, sentinelGuard, ← ha, hb]⟩))
      · exact .inr (.inr (.inr ⟨h, hb, ha, by simp [fetch, hc, sentinelGuard, hb, ha]⟩))
  · exact .inl ⟨kind, h, fetch_of_accessError h⟩

end Sys2Proof.Machine
end

