-- ==== Sys2Proof/Laws/Exec.lean ====
section
/-! SUPPORT. What each kind of meaning can do, and what a step can do: the case lemmas that whole-machine proofs start
from. -/

namespace Sys2Proof.Machine

variable {s t : State}

/-! ### Results, loads and stores -/

@[simp] theorem writeResult_reg_same (dr : RegId) (v : Word) : (writeResult dr v s).reg dr = v := by
  simp [writeResult]

theorem writeResult_reg_other {dr q : RegId} (v : Word) (h : q ≠ dr) : (writeResult dr v s).reg q = s.reg q := by
  simp [writeResult, reg_setReg_other v h]

@[simp] theorem writeResult_word (dr : RegId) (v a : Word) : (writeResult dr v s).word a = s.word a := rfl

/-- A result's registers, memory and flags, and everything else kept: the frame of ADD, AND, NOT and of a load. -/
theorem writeResult_frame (dr : RegId) (v : Word) (s : State) :
    (writeResult dr v s).reg dr = v ∧ FlagsShow v (writeResult dr v s) ∧ KeepsRegsBut [dr] s (writeResult dr v s) ∧
    KeepsMemoryBut [] s (writeResult dr v s) ∧ KeepsConsole s (writeResult dr v s) ∧
    KeepsConstants s (writeResult dr v s) ∧ (writeResult dr v s).pc = s.pc ∧ (writeResult dr v s).run = s.run :=
  ⟨writeResult_reg_same dr v, flagsShow_condOf rfl,
    fun _ hq => writeResult_reg_other v (by simpa using hq), fun _ _ => rfl, ⟨rfl, rfl, rfl, rfl⟩,
    ⟨rfl, rfl, rfl, rfl, rfl⟩, rfl, rfl⟩

theorem loadInto_next {dr : RegId} {a : Word} (h : Accessible a s) :
    loadInto dr a s = .next (writeResult dr (s.word a) s) := by
  simp [loadInto, memRead_ok h]

theorem loadInto_raise {dr : RegId} {a : Word} {kind : ErrorKind} (h : AccessError a kind s) :
    loadInto dr a s = .next (s.setRun (.faulted kind)) := by
  simp [loadInto, memRead_error h, raise]

/-- A load writes its result or raises the access error, and nothing else. -/
theorem loadInto_cases (dr : RegId) (a : Word) (s : State) :
    (Accessible a s ∧ loadInto dr a s = .next (writeResult dr (s.word a) s)) ∨
    (∃ kind, AccessError a kind s ∧ loadInto dr a s = .next (s.setRun (.faulted kind))) := by
  rcases access_cases a s with h | ⟨kind, h⟩
  · exact .inl ⟨h, loadInto_next h⟩
  · exact .inr ⟨kind, h, loadInto_raise h⟩

/-- A store writes its Word or raises the access error, and nothing else. -/
theorem memWrite_cases (a v : Word) (s : State) :
    (Accessible a s ∧ (memWrite a v s).finish = .next (s.setWord a v)) ∨
    (∃ kind, AccessError a kind s ∧ (memWrite a v s).finish = .next (s.setRun (.faulted kind))) := by
  rcases access_cases a s with h | ⟨kind, h⟩
  · exact .inl ⟨h, by simp [memWrite_go h]⟩
  · exact .inr ⟨kind, h, by simp [memWrite_raise h]⟩

/-- LDI loads from the pointer cell's Word or raises one of its two access errors. -/
theorem execLdi_cases (dr : RegId) (offset9 : BitVec 9) (s : State) :
    (Accessible (pcRelative s offset9) s ∧
      execLdi dr offset9 s = loadInto dr (s.word (pcRelative s offset9)) s) ∨
    (∃ kind, AccessError (pcRelative s offset9) kind s ∧
      execLdi dr offset9 s = .next (s.setRun (.faulted kind))) := by
  rcases access_cases (pcRelative s offset9) s with h | ⟨kind, h⟩
  · exact .inl ⟨h, by simp [execLdi, memRead_ok h]⟩
  · exact .inr ⟨kind, h, by simp [execLdi, memRead_error h, raise]⟩

/-- STI copies through its pointer or raises one of its two access errors. -/
theorem execSti_cases (sr : RegId) (offset9 : BitVec 9) (s : State) :
    (Accessible (s.reg sr) s ∧
      execSti sr offset9 s = (memWrite (pcRelative s offset9) (s.word (s.reg sr)) s).finish) ∨
    (∃ kind, AccessError (s.reg sr) kind s ∧ execSti sr offset9 s = .next (s.setRun (.faulted kind))) := by
  rcases access_cases (s.reg sr) s with h | ⟨kind, h⟩
  · exact .inl ⟨h, by simp [execSti, memRead_ok h]⟩
  · exact .inr ⟨kind, h, by simp [execSti, memRead_error h, raise]⟩

/-! ### Traps -/

/-- The console read of GETC. -/
theorem getcRead_cases (s : State) :
    (s.input = [] ∧ consoleRead .getc getcStore s = .go (s.setProgress (some .getc))) ∨
    (∃ c rest, s.input = c :: rest ∧
      consoleRead .getc getcStore s = .go ((s.setInput rest).setReg 0 (zext c))) := by
  unfold consoleRead
  cases h : s.input with
  | nil => exact .inl ⟨rfl, rfl⟩
  | cons c rest => exact .inr ⟨c, rest, rfl, rfl⟩

/-- IN after its read: the echo is printed and R0 written, or the echo raises. -/
theorem inStore_cases (c : Byte) (s : State) :
    (c ≤ 0x7F#8 ∧ inStore c s = .go (((s.emit (shown c)).emit 0x0A#8).setReg 0 (zext c)) ∧ shown c ≠ 0x0A#8) ∨
    (c ≤ 0x7F#8 ∧ inStore c s = .go ((s.emit (shown c)).setReg 0 (zext c)) ∧ shown c = 0x0A#8) ∨
    (0x7F#8 < c ∧ inStore c s = .raise .unimplemented s) := by
  by_cases h : 0x7F#8 < c
  · exact .inr (.inr ⟨h, by simp [inStore, printChar_raise h]⟩)
  · have h := BitVec.not_lt.mp h
    by_cases hl : shown c = 0x0A#8
    · refine .inr (.inl ⟨h, ?_, hl⟩)
      simp [inStore, printChar_go h, ensureLineStart_eq, hl]
    · refine .inl ⟨h, ?_, hl⟩
      simp [inStore, printChar_go h, ensureLineStart_eq, hl]

/-- The console read of IN. -/
theorem inRead_cases (s : State) :
    (s.input = [] ∧ consoleRead .in_ inStore s = .go (s.setProgress (some .in_))) ∨
    (∃ c rest, s.input = c :: rest ∧ consoleRead .in_ inStore s = inStore c (s.setInput rest)) := by
  unfold consoleRead
  cases h : s.input with
  | nil => exact .inl ⟨rfl, rfl⟩
  | cons c rest => exact .inr ⟨c, rest, rfl, rfl⟩

/-- OUT prints. -/
theorem execOut_prints (s : State) : ∃ f, Prints s f ∧ execOut s = f.finish := ⟨_, prints_printChar _, rfl⟩

/-- PUTS prints. -/
theorem execPuts_prints (s : State) : ∃ f, Prints s f ∧ execPuts s = f.finish :=
  ⟨_, prints_ensureLineStart.andThen (fun t _ => prints_putsLoop _ _ t) fun _ h => ensureLineStart_keeps_progress h, rfl⟩

/-- PUTSP prints. -/
theorem execPutsp_prints (s : State) : ∃ f, Prints s f ∧ execPutsp s = f.finish :=
  ⟨_, prints_ensureLineStart.andThen (fun t _ => prints_putspLoop _ _ t) fun _ h => ensureLineStart_keeps_progress h, rfl⟩

/-- IN prints its prompt, then reads. -/
theorem execIn_eq (s : State) : execIn s = (consoleRead .in_ inStore
    { s with out := s.out ++ shownText s.config.inPrompt,
             atLineStart := if s.config.inPrompt = [] then s.atLineStart
                            else endsLine (s.out ++ shownText s.config.inPrompt) }).finish := by
  rw [execIn, printAll_eq, andThen_go]

/-- TRAP runs the routine its vector names, or raises. -/
theorem execTrap_cases (v : BitVec 8) (s : State) :
    (v ∉ knownTrapVectors ∧ execTrap v s = .next (s.setRun (.faulted .malformedTrap))) ∨
    (v ∈ knownTrapVectors ∧
      (execTrap v s = execGetc s ∨ execTrap v s = execOut s ∨ execTrap v s = execPuts s ∨
       execTrap v s = execIn s ∨ execTrap v s = execPutsp s ∨ (v = 0x25#8 ∧ execTrap v s = execHalt s))) := by
  by_cases hv : v ∈ knownTrapVectors
  · refine .inr ⟨hv, ?_⟩
    simp only [knownTrapVectors, List.mem_cons, List.not_mem_nil, or_false] at hv
    rcases hv with rfl | rfl | rfl | rfl | rfl | rfl
    · exact .inl rfl
    · exact .inr (.inl rfl)
    · exact .inr (.inr (.inl rfl))
    · exact .inr (.inr (.inr (.inl rfl)))
    · exact .inr (.inr (.inr (.inr (.inl rfl))))
    · exact .inr (.inr (.inr (.inr (.inr ⟨rfl, rfl⟩))))
  · refine .inl ⟨hv, ?_⟩
    simp only [knownTrapVectors, List.mem_cons, List.not_mem_nil, or_false, not_or] at hv
    simp [execTrap, hv, raise]

/-! ### The step -/

/-- What a step with a next state can be: an unfinished instruction going on, a fetch or decoding error, or one decoded
instruction run with `pc` incremented. -/
theorem step_cases (h : step s = .next t) : s.run = .running ∧
    ((∃ p, s.inProgress = some p ∧ resume p s = .next t) ∨
     (∃ kind, s.inProgress = none ∧ AccessError s.pc kind s ∧ t = s.setRun (.faulted kind)) ∨
     (∃ kind, s.inProgress = none ∧ Accessible s.pc s ∧ (kind = .addressTooLow ∨ kind = .addressTooHigh) ∧
       t = (s.setPc (s.pc + 1)).setRun (.faulted kind)) ∨
     (∃ kind, s.inProgress = none ∧ Accessible s.pc s ∧ decode (s.word s.pc) = .error kind ∧
       t = (s.setPc (s.pc + 1)).setRun (.faulted kind)) ∨
     (∃ i, s.inProgress = none ∧ Accessible s.pc s ∧ decode (s.word s.pc) = .ok i ∧
       exec i (s.setPc (s.pc + 1)) = .next t)) := by
  unfold step at h
  cases hr : s.run with
  | halted => simp [hr] at h
  | faulted kind => simp [hr] at h
  | running =>
    refine ⟨rfl, ?_⟩
    rw [hr] at h
    cases hp : s.inProgress with
    | some p => exact .inl ⟨p, rfl, by simpa [hp] using h⟩
    | none =>
      simp only [hp] at h
      rcases fetch_cases s with ⟨kind, ha, hf⟩ | ⟨ha, _, hf⟩ | ⟨ha, _, _, hf⟩ | ⟨ha, _, _, hf⟩
      · simp only [hf, raise, Host.Outcome.next.injEq] at h
        exact .inr (.inl ⟨kind, rfl, ha, h.symm⟩)
      · simp only [hf, raise, Host.Outcome.next.injEq] at h
        exact .inr (.inr (.inl ⟨_, rfl, ha, .inl rfl, h.symm⟩))
      · simp only [hf, raise, Host.Outcome.next.injEq] at h
        exact .inr (.inr (.inl ⟨_, rfl, ha, .inr rfl, h.symm⟩))
      · simp only [hf] at h
        cases hd : decode (s.word s.pc) with
        | error kind =>
          simp only [hd, raise, Host.Outcome.next.injEq] at h
          exact .inr (.inr (.inr (.inl ⟨kind, rfl, ha, rfl, h.symm⟩)))
        | ok i =>
          simp only [hd] at h
          exact .inr (.inr (.inr (.inr ⟨i, rfl, ha, rfl, h⟩)))

/-- What holds in a state and is kept by every step holds in every state reached. -/
theorem reaches_induction {P : State → Prop} (keep : ∀ s t, P s → step s = .next t → P t) (h : Reaches s t) (hs : P s) :
    P t := by
  induction h with
  | here => exact hs
  | later first _ ih => exact ih (keep _ _ hs first)

end Sys2Proof.Machine
end

