-- ==== Sys2Proof/Laws/Loader.lean ====
section
/-! SUPPORT. The loader: the Words of the wire are the Words whose bytes, high byte first, stand there. -/

namespace Sys2Proof.Machine

@[simp] theorem wireWord_fields (w : Word) : wireWord (field w 8 8) (field w 0 8) = w := by
  apply BitVec.eq_of_getLsbD_eq
  intro i hi
  rw [wireWord, BitVec.getLsbD_append, getLsbD_field, getLsbD_field]
  by_cases h : i < 8
  · simp [h]
  · simp [h, show i - 8 < 8 by omega, show 8 + (i - 8) = i by omega]

theorem wireWords_flatMap_append (words : List Word) (rest : List Byte) :
    wireWords (words.flatMap (fun w => [field w 8 8, field w 0 8]) ++ rest) = words ++ wireWords rest := by
  induction words with
  | nil => rfl
  | cons w words ih => simp [wireWords, ih]

/-- At most one byte is no Word. -/
theorem wireWords_short {rest : List Byte} (h : rest.length ≤ 1) : wireWords rest = [] := by
  match rest, h with
  | [], _ => rfl
  | [_], _ => rfl

end Sys2Proof.Machine
end

