-- ==== Sys2Proof/Laws/PerInstr.lean ====
section
/-! SUPPORT. Laws made per instruction. Family `Opcode`: an instruction's encoding carries the opcode of its row of
spec/opcode_table.json (30_encoding.md R90, R107). -/

namespace Sys2Proof.Laws.Opcode

/-- The opcode nibble of the encoding is the one the instruction's table row asks for. -/
def Statement (i : Instr) : Prop := field (encode i) 12 4 = field (tableRow i).pattern 12 4

theorem addReg (dr : RegId) (sr1 : RegId) (sr2 : RegId) : Statement (.addReg dr sr1 sr2) := by
  simp only [Statement, encode, tableRow, threeFields_op]; decide
theorem addImm (dr : RegId) (sr1 : RegId) (imm5 : BitVec 5) : Statement (.addImm dr sr1 imm5) := by
  simp only [Statement, encode, tableRow, threeFields_op]; decide
theorem andReg (dr : RegId) (sr1 : RegId) (sr2 : RegId) : Statement (.andReg dr sr1 sr2) := by
  simp only [Statement, encode, tableRow, threeFields_op]; decide
theorem andImm (dr : RegId) (sr1 : RegId) (imm5 : BitVec 5) : Statement (.andImm dr sr1 imm5) := by
  simp only [Statement, encode, tableRow, threeFields_op]; decide
theorem not (dr : RegId) (sr : RegId) : Statement (.not dr sr) := by
  simp only [Statement, encode, tableRow, threeFields_op]; decide
theorem br (mask : BitVec 3) (offset9 : BitVec 9) : Statement (.br mask offset9) := by
  simp only [Statement, encode, tableRow, twoFields_op]; decide
theorem jmp (baseR : RegId) : Statement (.jmp baseR) := by
  simp only [Statement, encode, tableRow, threeFields_op]; decide
theorem jsr (offset11 : BitVec 11) : Statement (.jsr offset11) := by
  simp only [Statement, encode, tableRow, jsrFields_op]; decide
theorem jsrr (baseR : RegId) : Statement (.jsrr baseR) := by
  simp only [Statement, encode, tableRow, threeFields_op]; decide
theorem ld (dr : RegId) (offset9 : BitVec 9) : Statement (.ld dr offset9) := by
  simp only [Statement, encode, tableRow, twoFields_op]; decide
theorem st (sr : RegId) (offset9 : BitVec 9) : Statement (.st sr offset9) := by
  simp only [Statement, encode, tableRow, twoFields_op]; decide
theorem ldi (dr : RegId) (offset9 : BitVec 9) : Statement (.ldi dr offset9) := by
  simp only [Statement, encode, tableRow, twoFields_op]; decide
theorem sti (sr : RegId) (offset9 : BitVec 9) : Statement (.sti sr offset9) := by
  simp only [Statement, encode, tableRow, twoFields_op]; decide
theorem lea (dr : RegId) (offset9 : BitVec 9) : Statement (.lea dr offset9) := by
  simp only [Statement, encode, tableRow, twoFields_op]; decide
theorem ldr (dr : RegId) (baseR : RegId) (offset6 : BitVec 6) : Statement (.ldr dr baseR offset6) := by
  simp only [Statement, encode, tableRow, threeFields_op]; decide
theorem str (sr : RegId) (baseR : RegId) (offset6 : BitVec 6) : Statement (.str sr baseR offset6) := by
  simp only [Statement, encode, tableRow, threeFields_op]; decide
theorem trap (trapvect8 : BitVec 8) : Statement (.trap trapvect8) := by
  simp only [Statement, encode, tableRow, trapFields_op]; decide
theorem getc : Statement .getc := by
  simp only [Statement, encode, tableRow, trapFields_op]; decide
theorem out : Statement .out := by
  simp only [Statement, encode, tableRow, trapFields_op]; decide
theorem puts : Statement .puts := by
  simp only [Statement, encode, tableRow, trapFields_op]; decide
theorem in_ : Statement .in_ := by
  simp only [Statement, encode, tableRow, trapFields_op]; decide
theorem putsp : Statement .putsp := by
  simp only [Statement, encode, tableRow, trapFields_op]; decide
theorem halt : Statement .halt := by
  simp only [Statement, encode, tableRow, trapFields_op]; decide
theorem rti : Statement .rti := by
  simp only [Statement, encode, tableRow, threeFields_op]; decide
theorem reserved1101 : Statement .reserved1101 := by
  simp only [Statement, encode, tableRow, threeFields_op]; decide

end Sys2Proof.Laws.Opcode
end

