-- ==== Sys2Proof/Tests/Slice0.lean ====
section
/-! SUPPORT. The model's own tests. Expected results are those of spec/95_test_vectors.md (S and V numbers), under its
configuration, which is `Config.conventional` here; words are written out from the formats of 30_encoding.md R81. Then one
witness for each statement that has hypotheses, each clause at a boundary of its range. -/

namespace Sys2Proof.Tests

open Sys2Proof.Machine

/-! ### Helpers -/

/-- The reset state of an image at 0x3000, with registers and flags set. -/
def machine (image : List Word) (regs : List (RegId × Word)) (cond : BitVec 3) : State :=
  { regs.foldl (fun s p => s.setReg p.1 p.2) (State.boot Config.conventional 0x3000#16 image) with cond := cond }

/-- Cells set. -/
def State.holding (s : State) (cells : List (Word × Word)) : State := cells.foldl (fun t p => t.setWord p.1 p.2) s

/-- Whether the outcome is a next state that `p` accepts. -/
def goesTo (o : Host.Outcome State Fault Refusal) (p : State → Bool) : Bool :=
  match o with
  | .next t => p t
  | .fault _ => false
  | .refused _ => false

theorem exists_next {o : Host.Outcome State Fault Refusal} {p : State → Bool} (h : goesTo o p = true) :
    ∃ t, o = .next t ∧ p t = true := by
  cases o with
  | next t => exact ⟨t, rfl, h⟩
  | fault r => cases h
  | refused r => cases h

/-! ### Well-formedness -/

theorem test_trap_with_known_vector_is_ill_formed :
    ¬ (Instr.trap 0x20#8).WellFormed ∧ ¬ (Instr.trap 0x21#8).WellFormed ∧ ¬ (Instr.trap 0x22#8).WellFormed ∧
    ¬ (Instr.trap 0x23#8).WellFormed ∧ ¬ (Instr.trap 0x24#8).WellFormed ∧ ¬ (Instr.trap 0x25#8).WellFormed := by decide

/-! ### Encodings, written out from 30_encoding.md R81, R90, R92 -/

theorem test_code_addReg : decode 0b0001_011_001_0_00_010#16 = .ok (.addReg 3 1 2) ∧
    encode (.addReg 3 1 2) = 0b0001_011_001_0_00_010#16 := by decide
theorem test_code_addImm : decode 0b0001_100_101_1_10000#16 = .ok (.addImm 4 5 0b10000#5) ∧
    encode (.addImm 4 5 0b10000#5) = 0b0001_100_101_1_10000#16 := by decide
theorem test_code_andReg : decode 0b0101_001_010_0_00_011#16 = .ok (.andReg 1 2 3) ∧
    encode (.andReg 1 2 3) = 0b0101_001_010_0_00_011#16 := by decide
theorem test_code_andImm : decode 0b0101_101_110_1_01111#16 = .ok (.andImm 5 6 0b01111#5) ∧
    encode (.andImm 5 6 0b01111#5) = 0b0101_101_110_1_01111#16 := by decide
theorem test_code_not : decode 0b1001_111_000_1_11111#16 = .ok (.not 7 0) ∧
    encode (.not 7 0) = 0b1001_111_000_1_11111#16 := by decide
theorem test_code_br : decode 0b0000_100_111111101#16 = .ok (.br 0b100#3 0b111111101#9) ∧
    encode (.br 0b100#3 0b111111101#9) = 0b0000_100_111111101#16 := by decide
theorem test_code_jmp : decode 0b1100_000_011_000000#16 = .ok (.jmp 3) ∧
    encode (.jmp 3) = 0b1100_000_011_000000#16 := by decide
theorem test_code_jsr : decode 0b0100_1_10000000000#16 = .ok (.jsr 0b10000000000#11) ∧
    encode (.jsr 0b10000000000#11) = 0b0100_1_10000000000#16 := by decide
theorem test_code_jsrr : decode 0b0100_0_00_010_000000#16 = .ok (.jsrr 2) ∧
    encode (.jsrr 2) = 0b0100_0_00_010_000000#16 := by decide
theorem test_code_ld : decode 0b0010_010_000000001#16 = .ok (.ld 2 1#9) ∧
    encode (.ld 2 1#9) = 0b0010_010_000000001#16 := by decide
theorem test_code_st : decode 0b0011_010_111111110#16 = .ok (.st 2 0b111111110#9) ∧
    encode (.st 2 0b111111110#9) = 0b0011_010_111111110#16 := by decide
theorem test_code_ldi : decode 0b1010_011_000000100#16 = .ok (.ldi 3 4#9) ∧
    encode (.ldi 3 4#9) = 0b1010_011_000000100#16 := by decide
theorem test_code_sti : decode 0b1011_011_100000000#16 = .ok (.sti 3 0b100000000#9) ∧
    encode (.sti 3 0b100000000#9) = 0b1011_011_100000000#16 := by decide
theorem test_code_lea : decode 0b1110_000_000000010#16 = .ok (.lea 0 2#9) ∧
    encode (.lea 0 2#9) = 0b1110_000_000000010#16 := by decide
theorem test_code_ldr : decode 0b0110_001_010_000011#16 = .ok (.ldr 1 2 3#6) ∧
    encode (.ldr 1 2 3#6) = 0b0110_001_010_000011#16 := by decide
theorem test_code_str : decode 0b0111_001_010_111111#16 = .ok (.str 1 2 0b111111#6) ∧
    encode (.str 1 2 0b111111#6) = 0b0111_001_010_111111#16 := by decide
theorem test_code_trap : decode 0b1111_0000_00100110#16 = .ok (.trap 0x26#8) ∧
    encode (.trap 0x26#8) = 0b1111_0000_00100110#16 := by decide
theorem test_code_getc : decode 0b1111_0000_00100000#16 = .ok .getc ∧ encode .getc = 0b1111_0000_00100000#16 := by decide
theorem test_code_out : decode 0b1111_0000_00100001#16 = .ok .out ∧ encode .out = 0b1111_0000_00100001#16 := by decide
theorem test_code_puts : decode 0b1111_0000_00100010#16 = .ok .puts ∧ encode .puts = 0b1111_0000_00100010#16 := by decide
theorem test_code_in : decode 0b1111_0000_00100011#16 = .ok .in_ ∧ encode .in_ = 0b1111_0000_00100011#16 := by decide
theorem test_code_putsp : decode 0b1111_0000_00100100#16 = .ok .putsp ∧ encode .putsp = 0b1111_0000_00100100#16 := by
  decide
theorem test_code_halt : decode 0b1111_0000_00100101#16 = .ok .halt ∧ encode .halt = 0b1111_0000_00100101#16 := by decide
theorem test_code_rti : decode 0b1000_000000000000#16 = .ok .rti ∧ decode 0b1000_111111111111#16 = .ok .rti := by decide
theorem test_code_reserved1101 : decode 0b1101_000000000000#16 = .ok .reserved1101 ∧
    decode 0b1101_111111111111#16 = .ok .reserved1101 := by decide

/-- V7, V8, V14, V19, V20, V33, V34, V42, V43, V70, V71: the padding checks. -/
theorem test_bad_padding : [0x164A#16, 0x1652#16, 0x5449#16, 0x94BE#16, 0x94A0#16, 0xC2C0#16, 0xC0C1#16, 0x4280#16,
    0x4480#16, 0xF125#16, 0xF1FF#16].all (fun ir => decode ir = .error .malformedPadding) = true := by decide

theorem test_decodeTableWord : decodeTableWord 16 0x1225 = some (.addImm 1 0 5#5) ∧
    decodeTableWord 16 0xF126 = none ∧ decodeTableWord 8 0x100 = none := by decide

/-! ### One step of each instruction -/

/-- V2. -/
theorem test_addReg_overflow : goesTo (step (machine [0x1482#16] [(2, 0x4000#16)] 0b000#3))
    (fun t => t.reg 2 = 0x8000#16 ∧ t.cond = 0b100#3 ∧ t.pc = 0x3001#16 ∧ t.run = .running) := by decide
/-- V1. -/
theorem test_addReg : goesTo (step (machine [0x1642#16] [(1, 4#16), (2, 0xFFFE#16)] 0b000#3))
    (fun t => t.reg 3 = 2#16 ∧ t.cond = 0b001#3 ∧ t.reg 1 = 4#16) := by decide
/-- V4. -/
theorem test_addImm_wrap : goesTo (step (machine [0x1FE1#16] [(7, 0xFFFF#16)] 0b000#3))
    (fun t => t.reg 7 = 0#16 ∧ t.cond = 0b010#3) := by decide
/-- V5. -/
theorem test_addImm_negative : goesTo (step (machine [0x1930#16] [(4, 0x0010#16)] 0b000#3))
    (fun t => t.reg 4 = 0#16 ∧ t.cond = 0b010#3) := by decide
/-- V9. -/
theorem test_andReg : goesTo (step (machine [0x5283#16] [(2, 0xF0F0#16), (3, 0x8F0F#16)] 0b000#3))
    (fun t => t.reg 1 = 0x8000#16 ∧ t.cond = 0b100#3) := by decide
/-- V13. -/
theorem test_andImm : goesTo (step (machine [0x56F0#16] [(3, 0xABCD#16)] 0b000#3))
    (fun t => t.reg 3 = 0xABC0#16 ∧ t.cond = 0b100#3) := by decide
/-- V17. -/
theorem test_not : goesTo (step (machine [0x927F#16] [(1, 0x8000#16)] 0b000#3))
    (fun t => t.reg 1 = 0x7FFF#16 ∧ t.cond = 0b001#3) := by decide
/-- V18. -/
theorem test_not_ignores_bit5 : goesTo (step (machine [0x949F#16] [(2, 0x00FF#16)] 0b000#3))
    (fun t => t.reg 2 = 0xFF00#16 ∧ t.cond = 0b100#3) := by decide
/-- V23. -/
theorem test_br_to_itself : goesTo (step (machine [0x0FFF#16] [] 0b100#3))
    (fun t => t.pc = 0x3000#16 ∧ t.cond = 0b100#3) := by decide
/-- V22, V27. -/
theorem test_br_not_taken : goesTo (step (machine [0x0402#16] [] 0b001#3)) (fun t => t.pc = 0x3001#16) ∧
    goesTo (step (machine [0x0E05#16] [] 0b000#3)) (fun t => t.pc = 0x3001#16) := by decide
/-- V31. -/
theorem test_jmp_ret : goesTo (step (machine [0xC1C0#16] [(7, 0x3055#16)] 0b000#3))
    (fun t => t.pc = 0x3055#16 ∧ t.reg 7 = 0x3055#16) := by decide
/-- V32. -/
theorem test_jmp_unchecked : goesTo (step (machine [0xC000#16] [] 0b000#3))
    (fun t => t.pc = 0x0000#16 ∧ t.run = .running ∧
      goesTo (step t) (fun u => u.pc = 0x0000#16 ∧ u.run = .faulted .addressTooLow)) := by decide
/-- V37. -/
theorem test_jsr : goesTo (step (machine [0x4BFF#16] [] 0b010#3))
    (fun t => t.pc = 0x3400#16 ∧ t.reg 7 = 0x3001#16 ∧ t.cond = 0b010#3) := by decide
/-- V38. -/
theorem test_jsr_back : goesTo (step (machine [0x4FFF#16] [] 0b000#3))
    (fun t => t.pc = 0x3000#16 ∧ t.reg 7 = 0x3001#16) := by decide
/-- V40. -/
theorem test_jsrr_through_R7 : goesTo (step (machine [0x41C0#16] [(7, 0x4000#16)] 0b000#3))
    (fun t => t.pc = 0x3001#16 ∧ t.reg 7 = 0x3001#16) := by decide
/-- V41. -/
theorem test_jsrr_ignores_low_bits : goesTo (step (machine [0x40BF#16] [(2, 0x3100#16)] 0b000#3))
    (fun t => t.pc = 0x3100#16 ∧ t.reg 7 = 0x3001#16) := by decide
/-- V44. -/
theorem test_ld : goesTo (step (machine [0x2401#16, 0#16, 0x8001#16] [] 0b000#3))
    (fun t => t.reg 2 = 0x8001#16 ∧ t.cond = 0b100#3) := by decide
/-- V47. -/
theorem test_ld_low : goesTo (step ((State.holding (machine [] [] 0b001#3) [(0x3050#16, 0x2100#16)]).setPc 0x3050#16))
    (fun t => t.run = .faulted .addressTooLow ∧ t.pc = 0x3051#16 ∧ t.reg 0 = 0#16 ∧ t.cond = 0b001#3) := by decide
/-- V48. -/
theorem test_st : goesTo (step ((State.holding (machine [] [(2, 0x00AA#16)] 0b010#3) [(0x3005#16, 0x35FE#16)]).setPc
    0x3005#16)) (fun t => t.word 0x3004#16 = 0x00AA#16 ∧ t.pc = 0x3006#16 ∧ t.cond = 0b010#3) := by decide
/-- V49. -/
theorem test_st_low : goesTo (step (machine [0x3300#16] [(1, 5#16)] 0b000#3))
    (fun t => t.run = .faulted .addressTooLow ∧ t.word 0x2F01#16 = 0xDEAD#16) := by decide
/-- V51. -/
theorem test_ldr_source_is_destination : goesTo (step (State.holding (machine [0x6240#16] [(1, 0x3020#16)] 0b000#3)
    [(0x3020#16, 0x7FFF#16)])) (fun t => t.reg 1 = 0x7FFF#16 ∧ t.cond = 0b001#3) := by decide
/-- V53. -/
theorem test_ldr_wraps : goesTo (step (machine [0x62BF#16] [] 0b000#3))
    (fun t => t.run = .faulted .addressTooHigh ∧ t.reg 1 = 0#16) := by decide
/-- V57. -/
theorem test_str : goesTo (step (machine [0x749F#16] [(2, 0x3010#16)] 0b000#3))
    (fun t => t.word 0x302F#16 = 0x3010#16 ∧ t.word 0x302E#16 = 0xDADA#16) := by decide
/-- V58. -/
theorem test_str_low : goesTo (step (machine [0x7280#16] [(1, 1#16), (2, 0x2FFF#16)] 0b000#3))
    (fun t => t.run = .faulted .addressTooLow ∧ t.word 0x2FFF#16 = 0xDEAD#16) := by decide
/-- V59. -/
theorem test_ldi : goesTo (step (State.holding (machine [0xA604#16] [] 0b000#3)
    [(0x3005#16, 0x3100#16), (0x3100#16, 0x0042#16)])) (fun t => t.reg 3 = 0x0042#16 ∧ t.cond = 0b001#3) := by decide
/-- V61. -/
theorem test_ldi_high : goesTo (step (State.holding (machine [0xA604#16] [] 0b010#3) [(0x3005#16, 0xFE00#16)]))
    (fun t => t.run = .faulted .addressTooHigh ∧ t.reg 3 = 0#16 ∧ t.cond = 0b010#3) := by decide
/-- V63. -/
theorem test_sti_copies : goesTo (step (State.holding (machine [0xB604#16] [(3, 0x3100#16)] 0b000#3)
    [(0x3100#16, 0x0042#16)]))
    (fun t => t.word 0x3005#16 = 0x0042#16 ∧ t.reg 3 = 0x3100#16 ∧ t.word 0x3100#16 = 0x0042#16) := by decide
/-- V66. -/
theorem test_sti_checks_pointer_first : goesTo (step (machine [0xB700#16] [(3, 0xFE00#16)] 0b000#3))
    (fun t => t.run = .faulted .addressTooHigh) := by decide
/-- V67. -/
theorem test_lea : goesTo (step (machine [0xE002#16] [] 0b100#3))
    (fun t => t.reg 0 = 0x3003#16 ∧ t.cond = 0b100#3) := by decide
/-- V68. -/
theorem test_lea_unchecked : goesTo (step (machine [0xEB00#16] [] 0b010#3))
    (fun t => t.reg 5 = 0x2F01#16 ∧ t.cond = 0b010#3 ∧ t.run = .running) := by decide
/-- V72, V74. -/
theorem test_trap_unknown : goesTo (step (machine [0xF026#16] [] 0b000#3)) (fun t => t.run = .faulted .malformedTrap) ∧
    goesTo (step (machine [0xF0FF#16] [] 0b000#3)) (fun t => t.run = .faulted .malformedTrap) := by decide
/-- V75. -/
theorem test_getc : goesTo (step ((machine [0xF020#16] [(0, 0xFFFF#16)] 0b100#3).supply [0x61#8]))
    (fun t => t.reg 0 = 0x0061#16 ∧ t.cond = 0b100#3 ∧ t.out = [] ∧ t.input = []) := by decide
/-- V76. -/
theorem test_getc_unvalidated : goesTo (step ((machine [0xF020#16] [] 0b000#3).supply [0xE9#8]))
    (fun t => t.reg 0 = 0x00E9#16 ∧ t.run = .running) := by decide
/-- V79. -/
theorem test_out_carriage_return : goesTo (step (machine [0xF021#16] [(0, 0x000D#16)] 0b000#3))
    (fun t => t.out = [0x0A#8] ∧ t.atLineStart = true) := by decide
/-- V81. -/
theorem test_out_unimplemented : goesTo (step (machine [0xF021#16] [(0, 0x0080#16)] 0b000#3))
    (fun t => t.out = [] ∧ t.run = .faulted .unimplemented) := by decide
/-- V84. -/
theorem test_puts_normalises : goesTo (step { machine [0xF022#16, 0#16, 0x0041#16, 0#16] [(0, 0x3002#16)] 0b000#3 with
    atLineStart := false }) (fun t => t.out = [0x0A#8, 0x41#8] ∧ t.atLineStart = false) := by decide
/-- V86. -/
theorem test_puts_unimplemented : goesTo (step (machine [0xF022#16, 0x0048#16, 0x0141#16] [(0, 0x3001#16)] 0b000#3))
    (fun t => t.out = [0x48#8] ∧ t.run = .faulted .unimplemented) := by decide
/-- V88. -/
theorem test_putsp : goesTo (step (machine [0xF024#16, 0x6948#16, 0x0021#16] [(0, 0x3001#16)] 0b000#3))
    (fun t => t.out = [0x48#8, 0x69#8, 0x21#8] ∧ t.run = .running) := by decide
/-- V90. -/
theorem test_putsp_unimplemented : goesTo (step (machine [0xF024#16, 0x8041#16] [(0, 0x3001#16)] 0b000#3))
    (fun t => t.out = [0x41#8] ∧ t.run = .faulted .unimplemented) := by decide
/-- V92. -/
theorem test_in : goesTo (step ((machine [0xF023#16] [] 0b000#3).supply [0x0D#8]))
    (fun t => t.out = [0x3E#8, 0x20#8, 0x0A#8] ∧ t.atLineStart = true ∧ t.reg 0 = 0x000D#16 ∧ t.cond = 0b000#3) := by decide
/-- V93. -/
theorem test_in_unimplemented : goesTo (step ((machine [0xF023#16] [(0, 7#16)] 0b000#3).supply [0xE9#8]))
    (fun t => t.out = [0x3E#8, 0x20#8] ∧ t.run = .faulted .unimplemented ∧ t.reg 0 = 7#16) := by decide
/-- V69. -/
theorem test_halt : goesTo (step (machine [0xF025#16] [] 0b000#3))
    (fun t => t = { machine [0xF025#16] [] 0b000#3 with pc := 0x3001#16, run := .halted }) := by decide
/-- V94. -/
theorem test_rti : goesTo (step (machine [0x8000#16] [] 0b000#3))
    (fun t => t.run = .faulted .unauthorizedInstr ∧ t.pc = 0x3001#16) := by decide
/-- V97. -/
theorem test_reserved1101 : goesTo (step (machine [0xDFFF#16] [] 0b000#3)) (fun t => t.run = .faulted .malformedInstr) := by
  decide

/-! ### Fetch, load, reset -/

/-- V98, V99. -/
theorem test_fetch_outside : goesTo (step ((machine [] [] 0b000#3).setPc 0x2FFF#16))
      (fun t => t.run = .faulted .addressTooLow ∧ t.pc = 0x2FFF#16) ∧
    goesTo (step ((machine [] [] 0b000#3).setPc 0xFE00#16))
      (fun t => t.run = .faulted .addressTooHigh ∧ t.pc = 0xFE00#16) := by decide
/-- V100, V102. -/
theorem test_fetch_sentinel : goesTo (step ((machine [] [] 0b000#3).setPc 0xFDFF#16))
      (fun t => t.run = .faulted .addressTooHigh ∧ t.pc = 0xFE00#16) ∧
    goesTo (step (machine [0xDEAD#16] [] 0b000#3))
      (fun t => t.run = .faulted .addressTooLow ∧ t.pc = 0x3001#16) := by decide
/-- V7: a bad padding field stops before any effect. -/
theorem test_step_bad_padding : goesTo (step (machine [0x164A#16] [(1, 4#16), (2, 2#16)] 0b010#3))
    (fun t => t.run = .faulted .malformedPadding ∧ t.pc = 0x3001#16 ∧ t.reg 3 = 0#16 ∧ t.cond = 0b010#3) := by decide
/-- S3: the file `30 00 12 34 56 78`. -/
theorem test_load : loadBytes Config.conventional [0x30#8, 0x00#8, 0x12#8, 0x34#8, 0x56#8, 0x78#8] =
      some (.ok (State.boot Config.conventional 0x3000#16 [0x1234#16, 0x5678#16])) ∧
    (State.boot Config.conventional 0x3000#16 [0x1234#16, 0x5678#16]).word 0x3001#16 = 0x5678#16 ∧
    (State.boot Config.conventional 0x3000#16 [0x1234#16, 0x5678#16]).word 0x2FFF#16 = 0xDEAD#16 ∧
    (State.boot Config.conventional 0x3000#16 [0x1234#16, 0x5678#16]).word 0x3002#16 = 0xDADA#16 ∧
    (State.boot Config.conventional 0x3000#16 [0x1234#16, 0x5678#16]).loadEnd = 0x3002 := ⟨rfl, by decide⟩
/-- 60_exceptions.md R235: "fewer than one Word", and a payload past the end of memory. -/
theorem test_load_errors : loadBytes Config.conventional [] = some (.error .fileTooShort) ∧
    loadBytes Config.conventional [0x30#8] = some (.error .fileTooShort) ∧
    loadBytes Config.conventional [0xFF#8, 0xFF#8, 0x00#8, 0x00#8, 0x00#8, 0x00#8] = some (.error .fileTooLong) :=
  ⟨rfl, rfl, rfl⟩
/-- P6: the empty payload. -/
theorem test_reset_step : goesTo (step State.reset)
    (fun t => t.run = .faulted .addressTooHigh ∧ t.pc = 0x3001#16) := by decide
theorem test_reset_memory_canonical : MemoryWf State.reset.fill State.reset.mem := by decide
theorem test_withFetchWord : goesTo (step (State.reset.withFetchWord 16 0x1225)) (fun t => t.reg 1 = 5#16) := by decide

/-! ### Witnesses: for each statement with hypotheses, concrete values that meet them together -/

/-- The state of an instruction's rule with `pc` at a given value, and registers and cells set. -/
def running (pc : Word) (regs : List (RegId × Word)) (cells : List (Word × Word)) : State :=
  (State.holding (machine [] regs 0b001#3) cells).setPc pc

theorem witness_DecodeEncodeRoundTrip : (Instr.addReg 7 0 7).WellFormed ∧ (Instr.br 0b111#3 0b100000000#9).WellFormed ∧
    (Instr.trap 0x1F#8).WellFormed ∧ (Instr.trap 0x26#8).WellFormed := by decide
theorem witness_DecodedWordReencodes : decode 0x949F#16 = .ok (.not 2 2) := by decide
theorem witness_IgnoredBitsDecodeAlike : field 0x949F#16 12 4 = 0b1001#4 ∧ field 0x41FF#16 11 5 = 0b01000#5 ∧
    field 0x8FFF#16 12 4 = 0b1000#4 ∧ field 0xDFFF#16 12 4 = 0b1101#4 := by decide
theorem witness_RefusedWordsAreTheSixPaddingCases : decode 0x1008#16 = .error .malformedPadding ∧
    decode 0x5010#16 = .error .malformedPadding ∧ decode 0x901E#16 = .error .malformedPadding ∧
    decode 0xC001#16 = .error .malformedPadding ∧ decode 0xC200#16 = .error .malformedPadding ∧
    decode 0x4200#16 = .error .malformedPadding ∧ decode 0xF120#16 = .error .malformedPadding := by decide
theorem witness_DecodedWordLiesInItsTableRow : decode 0xF0FF#16 = .ok (.trap 0xFF#8) ∧ decode 0xF025#16 = .ok .halt := by
  decide
theorem witness_SignExtensionIsExact : 5 ∈ [5, 6, 9, 11] ∧ 11 ∈ [5, 6, 9, 11] ∧ 16 ≤ 16 := by decide
theorem witness_StepRunsDecodedInstruction : let s := machine [0x1225#16] [] 0b000#3
    s.run = .running ∧ s.inProgress = none ∧ Accessible s.pc s ∧ s.word s.pc ≠ s.config.sentinelBelow ∧
    s.word s.pc ≠ s.config.sentinelAbove ∧ decode (s.word s.pc) = .ok (.addImm 1 0 5#5) := by decide
theorem witness_FetchFaultsBeforeAnyEffect_low : let s := running 0x2FFF#16 [] []
    s.run = .running ∧ s.inProgress = none ∧ AccessError s.pc .addressTooLow s := by decide
theorem witness_FetchFaultsBeforeAnyEffect_high : let s := running 0xFE00#16 [] []
    s.run = .running ∧ s.inProgress = none ∧ AccessError s.pc .addressTooHigh s := by decide
theorem witness_FetchFaultsBeforeAnyEffect_below : let s := running 0x3000#16 [] [(0x3000#16, 0xDEAD#16)]
    s.run = .running ∧ s.inProgress = none ∧ Accessible s.pc s ∧ s.word s.pc = s.config.sentinelBelow := by decide
theorem witness_FetchFaultsBeforeAnyEffect_above : let s := running 0xFDFF#16 [] []
    s.run = .running ∧ s.inProgress = none ∧ Accessible s.pc s ∧ s.word s.pc = s.config.sentinelAbove ∧
    s.config.sentinelBelow ≠ s.config.sentinelAbove := by decide
theorem witness_FetchFaultsBeforeAnyEffect_padding : let s := running 0xFDFF#16 [] [(0xFDFF#16, 0xF125#16)]
    s.run = .running ∧ s.inProgress = none ∧ Accessible s.pc s ∧ s.word s.pc ≠ s.config.sentinelBelow ∧
    s.word s.pc ≠ s.config.sentinelAbove ∧ decode (s.word s.pc) = .error .malformedPadding := by decide
theorem witness_StepsExactlyWhileRunning : (State.reset.setRun .halted).run = .halted ∧
    (State.reset.setRun (.faulted .unimplemented)).run = .faulted .unimplemented ∧ State.reset.run = .running := by decide
theorem witness_FlagsWrittenOnlyBySixInstructions : ∃ t, exec (.lea 0 2#9) State.reset = .next t ∧
    writesCond (.lea 0 2#9) = false := ⟨_, rfl, rfl⟩
theorem witness_OnlyBranchReadsFlags : (∀ mask offset9, Instr.addReg 0 1 2 ≠ .br mask offset9) ∧
    ∃ t, exec (.addReg 0 1 2) State.reset = .next t := ⟨nofun, _, rfl⟩
theorem witness_RegistersWrittenOnlyAsNamed : ∃ t, exec (.jsr 1#11) State.reset = .next t := ⟨_, rfl⟩
theorem witness_MaskZeroNeverBranches : let s := running 0x3000#16 [] [(0x3000#16, 0x01FF#16)]
    s.run = .running ∧ s.inProgress = none ∧ Accessible s.pc s ∧ s.word s.pc ≠ s.config.sentinelBelow ∧
    s.word s.pc ≠ s.config.sentinelAbove ∧ (s.word s.pc).toNat ≤ 0x01FF := by decide

/-- LD at both ends of the window and one past each. -/
theorem witness_LoadsReadOneWord_ld : Accessible (pcRelative (running 0x3000#16 [] []) 0#9) (running 0x3000#16 [] []) ∧
    AccessError (pcRelative (running 0x3000#16 [] []) 0x1FF#9) .addressTooLow (running 0x3000#16 [] []) ∧
    Accessible (pcRelative (running 0xFDFF#16 [] []) 0#9) (running 0xFDFF#16 [] []) ∧
    AccessError (pcRelative (running 0xFDFF#16 [] []) 1#9) .addressTooHigh (running 0xFDFF#16 [] []) := by decide
theorem witness_LoadsReadOneWord_ldr : let s := running 0x3001#16 [(1, 0x3000#16), (2, 0xFDFF#16)] []
    Accessible (baseOffset s 1 0#6) s ∧ AccessError (baseOffset s 1 0x3F#6) .addressTooLow s ∧
    Accessible (baseOffset s 2 0#6) s ∧ AccessError (baseOffset s 2 1#6) .addressTooHigh s := by decide
theorem witness_LoadIndirect_completes : let s := running 0x3001#16 [] [(0x3001#16, 0x3000#16), (0x3002#16, 0xFDFF#16)]
    Accessible (pcRelative s 0#9) s ∧ Accessible (s.word (pcRelative s 0#9)) s ∧
    Accessible (pcRelative s 1#9) s ∧ Accessible (s.word (pcRelative s 1#9)) s := by decide
theorem witness_LoadIndirect_faults : let s := running 0x3001#16 [] [(0x3001#16, 0x2FFF#16), (0x3002#16, 0xFE00#16)]
    AccessError (pcRelative s 0x1FE#9) .addressTooLow s ∧
    Accessible (pcRelative s 0#9) s ∧ AccessError (s.word (pcRelative s 0#9)) .addressTooLow s ∧
    Accessible (pcRelative s 1#9) s ∧ AccessError (s.word (pcRelative s 1#9)) .addressTooHigh s := by decide
/-- ST and STR at both ends of the window and one past each. -/
theorem witness_StoresWriteOneWord : let s := running 0x3000#16 [(1, 0xFDFF#16)] []
    Accessible (pcRelative s 0#9) s ∧ AccessError (pcRelative s 0x1FF#9) .addressTooLow s ∧
    Accessible (baseOffset s 1 0#6) s ∧ AccessError (baseOffset s 1 1#6) .addressTooHigh s := by decide
theorem witness_StoreIndirectCopies : let s := running 0x3000#16 [(1, 0xFDFF#16), (2, 0xFE00#16), (3, 0x2FFF#16)] []
    Accessible (s.reg 1) s ∧ Accessible (pcRelative s 0#9) s ∧ AccessError (s.reg 2) .addressTooHigh s ∧
    AccessError (s.reg 3) .addressTooLow s ∧ AccessError (pcRelative s 0x1FF#9) .addressTooLow s := by decide
theorem witness_CheckedWriteReplacesOneWord : let s := running 0x3000#16 [] []
    Accessible 0x3000#16 s ∧ Accessible 0xFDFF#16 s ∧ AccessError 0x2FFF#16 .addressTooLow s ∧
    AccessError 0xFE00#16 .addressTooHigh s := by decide
theorem witness_MemoryWrittenOnlyWhereStored : let s := running 0x3001#16 [] []
    ∃ t, exec (.st 1 4#9) s = .next t ∧ storesTo (.st 1 4#9) s = [0x3005#16] := ⟨_, rfl, by decide⟩
theorem witness_InaccessibleMemoryNeverChanges :
    (∃ t, step (machine [0x3204#16] [] 0b000#3) = .next t ∧ decide (t.word 0x3005#16 = 0#16) = true) ∧
    ¬ Accessible 0x2FFF#16 (machine [0x3204#16] [] 0b000#3) ∧ ¬ Accessible 0xFE00#16 (machine [0x3204#16] [] 0b000#3) :=
  ⟨exists_next (by decide), by decide, by decide⟩
/-- ST, STR and STI at an end of the window, STI's pointer at each end, and the Words stored: a sentinel and a plain one. -/
theorem witness_StoredWordIsFetchedNext : let s := running 0xFDFF#16 [(1, 0x3000#16), (2, 0xFDFF#16)] [(0x3000#16, 0x1021#16)]
    Accessible (pcRelative s 0#9) s ∧ Accessible (baseOffset s 1 0#6) s ∧ Accessible (s.reg 1) s ∧ Accessible (s.reg 2) s ∧
    s.word (s.reg 1) = 0x1021#16 ∧ s.word (s.reg 2) = s.config.sentinelAbove := by decide
theorem witness_GetcStoresTheAnswer : (State.reset.supply [0xFF#8]).input = 0xFF#8 :: [] ∧ State.reset.input = [] := by
  decide
theorem witness_OutPrintsLowByte : ((running 0x3001#16 [(0, 0xFF7F#16)] []).reg 0).toNat % 256 ≤ 0x7F ∧
    0x7F < ((running 0x3001#16 [(0, 0x0080#16)] []).reg 0).toNat % 256 ∧
    ((running 0x3001#16 [(0, 0x000D#16)] []).reg 0).toNat % 256 = 0x0D := by decide

/-- A string of one character with its terminator in the last cell of the window. -/
theorem witness_PutsPrintsTheString_ends :
    let s := running 0x3001#16 [(0, 0xFDFE#16)] [(0xFDFE#16, 0x007F#16), (0xFDFF#16, 0x0000#16)]
    HoldsText s (s.reg 0) [0x7F#7] ∧ [0x7F#7].length < 65536 ∧ Accessible (s.reg 0 + BitVec.ofNat 16 1) s ∧
    s.word (s.reg 0 + BitVec.ofNat 16 1) = 0#16 :=
  ⟨⟨by decide, by decide, by decide, trivial⟩, by decide, by decide, by decide⟩
theorem witness_PutsPrintsTheString_faults :
    let s := running 0x3001#16 [(0, 0xFDFE#16)] [(0xFDFE#16, 0x0080#16), (0xFDFF#16, 0x0041#16)]
    (HoldsText s (s.reg 0) [] ∧ Accessible (s.reg 0 + BitVec.ofNat 16 0) s ∧
      0x7F < (s.word (s.reg 0 + BitVec.ofNat 16 0)).toNat) ∧
    (let u := s.setReg 0 0xFDFF#16
     HoldsText u (u.reg 0) [0x41#7] ∧ AccessError (u.reg 0 + BitVec.ofNat 16 1) .addressTooHigh u) ∧
    (let u := s.setReg 0 0x2FFF#16
     HoldsText u (u.reg 0) [] ∧ AccessError (u.reg 0 + BitVec.ofNat 16 0) .addressTooLow u) :=
  ⟨⟨trivial, by decide, by decide⟩, ⟨⟨by decide, by decide, by decide, trivial⟩, by decide⟩, trivial, by decide⟩
theorem witness_PutspPrintsTheString_ends :
    let s := running 0x3001#16 [(0, 0xFDFE#16)] [(0xFDFE#16, 0x6948#16), (0xFDFF#16, 0x4100#16)]
    let u := s.setWord 0xFDFF#16 0x0041#16
    HoldsPairs s (s.reg 0) [(0x48#7, 0x69#7)] ∧ Accessible (s.reg 0 + BitVec.ofNat 16 1) s ∧
    (s.word (s.reg 0 + BitVec.ofNat 16 1)).toNat % 256 = 0 ∧
    HoldsPairs u (u.reg 0) [(0x48#7, 0x69#7)] ∧ Accessible (u.reg 0 + BitVec.ofNat 16 1) u ∧ 0x41#7 ≠ 0#7 ∧
    (u.word (u.reg 0 + BitVec.ofNat 16 1)).toNat % 256 = (0x41#7).toNat ∧
    (u.word (u.reg 0 + BitVec.ofNat 16 1)).toNat / 256 = 0 :=
  ⟨⟨by decide, by decide, by decide, by decide, trivial⟩, by decide, by decide,
   ⟨by decide, by decide, by decide, by decide, trivial⟩, by decide, by decide, by decide, by decide⟩
theorem witness_PutspPrintsTheString_faults :
    let s := running 0x3001#16 [(0, 0xFDFE#16)] [(0xFDFE#16, 0x0080#16), (0xFDFF#16, 0x8041#16)]
    (HoldsPairs s (s.reg 0) [] ∧ Accessible (s.reg 0 + BitVec.ofNat 16 0) s ∧
      0x7F < (s.word (s.reg 0 + BitVec.ofNat 16 0)).toNat % 256) ∧
    (let u := s.setReg 0 0xFDFF#16
     HoldsPairs u (u.reg 0) [] ∧ Accessible (u.reg 0 + BitVec.ofNat 16 0) u ∧
      (u.word (u.reg 0 + BitVec.ofNat 16 0)).toNat % 256 = (0x41#7).toNat ∧
      0x7F < (u.word (u.reg 0 + BitVec.ofNat 16 0)).toNat / 256) ∧
    (let u := s.setReg 0 0xFE00#16
     HoldsPairs u (u.reg 0) [] ∧ AccessError (u.reg 0 + BitVec.ofNat 16 0) .addressTooHigh u) :=
  ⟨⟨trivial, by decide, by decide⟩, ⟨trivial, by decide, by decide, by decide⟩, trivial, by decide⟩
theorem witness_InPromptsReadsAndEchoes : (State.reset.supply [0x7F#8]).input = 0x7F#8 :: [] ∧ (0x7F#8).toNat ≤ 0x7F ∧
    (State.reset.supply [0x80#8]).input = 0x80#8 :: [] ∧ 0x7F < (0x80#8).toNat ∧ State.reset.input = [] := by decide

/-- A PUTS and a PUTSP that each run into the Word of their own trap, and a held read. -/
theorem witness_StringTrapsEndWithinTheirStep :
    (NoStringUnfinished (machine [0xF022#16] [(0, 0x3000#16)] 0b000#3) ∧
      ∃ t, step (machine [0xF022#16] [(0, 0x3000#16)] 0b000#3) = .next t ∧
        decide (t.run = .faulted .unimplemented) = true) ∧
    (NoStringUnfinished (machine [0xF024#16] [(0, 0x3000#16)] 0b000#3) ∧
      ∃ t, step (machine [0xF024#16] [(0, 0x3000#16)] 0b000#3) = .next t ∧
        decide (t.run = .faulted .unimplemented ∧ t.out = [0x24#8]) = true) ∧
    (NoStringUnfinished (State.reset.setProgress (some .in_)) ∧
      ∃ t, step (State.reset.setProgress (some .in_)) = .next t ∧ decide (t.inProgress = some .in_) = true) :=
  ⟨⟨by decide, exists_next (by decide)⟩, ⟨by decide, exists_next (by decide)⟩, by decide, exists_next (by decide)⟩

theorem witness_HaltEndsTheRun : ∃ t, exec .halt State.reset = .next t := ⟨_, rfl⟩
theorem witness_TrapDispatchesOnItsVector : (0x1F#8).toNat < 0x20 ∧ 0x25 < (0x26#8).toNat ∧
    0x20 ≤ (0x20#8).toNat ∧ (0x20#8).toNat ≤ 0x25 ∧ 0x20 ≤ (0x25#8).toNat ∧ (0x25#8).toNat ≤ 0x25 := by decide
theorem witness_HeldReadEndsAsIfAnsweredAtOnce : Held (State.reset.setProgress (some .getc)) ∧
    Held (State.reset.setProgress (some .in_)) ∧ State.reset.run = .running ∧ State.reset.inProgress = none ∧
    State.reset.input = [] ∧ (∃ t, exec .getc State.reset = .next t) ∧ (∃ t, exec .in_ State.reset = .next t) :=
  ⟨⟨rfl, .inl rfl, rfl⟩, ⟨rfl, .inr rfl, rfl⟩, rfl, rfl, rfl, ⟨_, rfl⟩, _, rfl⟩

/-- A run of one step that prints a character. -/
theorem reaches_out : ∃ t, Reaches (machine [0xF021#16] [(0, 0x0041#16)] 0b001#3) t ∧ decide (t.out = [0x41#8]) = true := by
  obtain ⟨t, ht, hp⟩ := exists_next (o := step (machine [0xF021#16] [(0, 0x0041#16)] 0b001#3))
    (p := fun t => decide (t.out = [0x41#8])) (by decide)
  exact ⟨t, .later ht .here, hp⟩
theorem witness_OutputIsAppendOnly : ∃ t, Reaches (machine [0xF021#16] [(0, 0x0041#16)] 0b001#3) t :=
  reaches_out.imp fun _ h => h.1
theorem witness_OnlyTrapsTouchTheConsole : ∃ t, exec (.ldr 1 2 0#6) State.reset = .next t ∧
    usesConsole (.ldr 1 2 0#6) = false := ⟨_, rfl, rfl⟩
/-- A fault of the instruction, a fault of the fetch, and a fault of an instruction that was left unfinished. -/
theorem witness_FaultsArePrecise :
    (∃ t, step (machine [0x3300#16] [] 0b000#3) = .next t ∧ decide (t.run = .faulted .addressTooLow) = true) ∧
    (∃ t, step (running 0x2FFF#16 [] []) = .next t ∧ decide (t.run = .faulted .addressTooLow) = true) ∧
    (∃ t, step ((running 0x3001#16 [] []).setProgress (some (.puts 0xFE00#16))) = .next t ∧
      decide (t.run = .faulted .addressTooHigh) = true) :=
  ⟨exists_next (by decide), exists_next (by decide), exists_next (by decide)⟩
theorem witness_ErrorKindsHaveTheirOwnCauses :
    (∃ t, step (machine [0x1008#16] [] 0b000#3) = .next t ∧ decide (t.run = .faulted .malformedPadding) = true) ∧
    (∃ t, step (machine [0xD000#16] [] 0b000#3) = .next t ∧ decide (t.run = .faulted .malformedInstr) = true) ∧
    (∃ t, step (machine [0xF01F#16] [] 0b000#3) = .next t ∧ decide (t.run = .faulted .malformedTrap) = true) ∧
    (∃ t, step (machine [0x8000#16] [] 0b000#3) = .next t ∧ decide (t.run = .faulted .unauthorizedInstr) = true) :=
  ⟨exists_next (by decide), exists_next (by decide), exists_next (by decide), exists_next (by decide)⟩
theorem witness_HaltOnlyByTrap25 :
    ∃ t, step (machine [0xF025#16] [] 0b000#3) = .next t ∧ decide (t.run = .halted) = true := exists_next (by decide)
theorem witness_StatusCodeIdentifiesTheEnd : State.reset.config.WellFormed ∧
    (State.reset.setRun .halted).config = State.reset.config := by decide

theorem inv_of_reset_fetch : (State.reset.withFetchWord 16 0x1225).Inv :=
  ⟨by decide, by decide, by decide, by decide, by decide, by decide, by decide⟩
theorem witness_StepKeepsInvariant : (State.reset.withFetchWord 16 0x1225).Inv ∧
    ∃ t, step (State.reset.withFetchWord 16 0x1225) = .next t ∧ decide (t.cond = 0b001#3) = true :=
  ⟨inv_of_reset_fetch, exists_next (by decide)⟩
/-- An image that ends with the last cell of memory, and an empty one at the first cell. -/
theorem witness_BootMeetsInvariant : Config.conventional.WellFormed ∧
    [0x1234#16].length ≤ 65536 - (0xFFFF#16).toNat ∧ ([] : List Word).length ≤ 65536 - (0#16).toNat := by decide
theorem witness_OneFlagSetForEver : writesCond (.not 0 0) = true ∧
    (∃ t, exec (.not 0 0) State.reset = .next t ∧ t.run = State.reset.run) ∧ State.reset.run = .running ∧
    OneFlagSet (machine [0xF021#16] [(0, 0x0041#16)] 0b001#3) ∧
    (∃ t, Reaches (machine [0xF021#16] [(0, 0x0041#16)] 0b001#3) t) :=
  ⟨rfl, ⟨_, rfl, rfl⟩, rfl, by decide, witness_OutputIsAppendOnly⟩
theorem witness_InertFieldsNeverMatter : ∃ t, step (machine [0x1225#16] [] 0b000#3) = .next t ∧
    decide (t.reg 1 = 5#16) = true := exists_next (by decide)
theorem witness_BoundsAndParametersAreConstant :
    ∃ t, Reaches (machine [0xF021#16] [(0, 0x0041#16)] 0b001#3) t := witness_OutputIsAppendOnly
/-- The whole of memory from the last origin, and each side of the image of S3. -/
theorem witness_ResetMemoryContents : [0x1234#16].length ≤ 65536 - (0xFFFF#16).toNat ∧
    [0x1234#16, 0x5678#16].length ≤ 65536 - (0x3000#16).toNat ∧ (0x2FFF#16).toNat < (0x3000#16).toNat ∧
    (0x3001#16).toNat - (0x3000#16).toNat < [0x1234#16, 0x5678#16].length := by decide
theorem witness_EmptyPayloadFaultsAtOnce : Config.conventional.WellFormed := by decide
theorem witness_ObjectFileIsBigEndian : ([] : List Byte).length ≤ 1 ∧ [0x30#8].length ≤ 1 ∧ [0x1234#16].length ≤ 65536 - (0xFFFF#16).toNat ∧
    65536 - (0xFFFF#16).toNat < [0x1234#16, 0x5678#16].length := by decide

end Sys2Proof.Tests
end

/-! Sign and zero extension of an instruction's field to a Word (00_scope.md R9), for a field of any width that fits. -/

namespace Sys2Proof.Machine

/-- A sign-extended field keeps the field's own bits and repeats its top bit above them. -/
theorem getElem_sext {n i : Nat} (v : BitVec n) (hi : i < 16) :
    (sext v)[i] = if i < n then v.getLsbD i else v.getLsbD (n - 1) := by
  rw [sext, BitVec.getElem_signExtend, BitVec.msb_eq_getLsbD_last]
  split <;> simp [*]

theorem getElem_ones_shiftLeft {n i : Nat} (hi : i < 16) : (0xFFFF#16 <<< n)[i] = !decide (i < n) := by
  have hones : (0xFFFF#16)[i - n] = true := BitVec.getElem_allOnes (i - n) (by omega)
  simp [hones]

/-- R9's OR form: ones above a field whose top bit is set; any other field is unchanged. -/
theorem sext_eq_ite_or {n : Nat} (v : BitVec n) :
    sext v = if v.getLsbD (n - 1) then v.setWidth 16 ||| (0xFFFF#16 <<< n) else v.setWidth 16 := by
  ext i hi
  rw [getElem_sext]
  by_cases hin : i < n
  · cases v.getLsbD (n - 1) <;> simp [hin]
  · have habove : v.getLsbD i = false := BitVec.getLsbD_of_ge v i (by omega)
    cases v.getLsbD (n - 1) with
    | false => simp [hin, habove]
    | true =>
      rw [if_pos rfl, BitVec.getElem_or, getElem_ones_shiftLeft hi]
      simp [hin]

theorem toInt_sext {n : Nat} (hn : n ≤ 16) (v : BitVec n) : (sext v).toInt = v.toInt :=
  BitVec.toInt_signExtend_of_le hn

/-- Adding a sign-extended field modulo 65536 adds the field's signed value. -/
theorem add_sext {n : Nat} (a : Word) (v : BitVec n) : a + sext v = a + BitVec.ofInt 16 v.toInt := rfl

theorem toNat_zext {n : Nat} (hn : n ≤ 16) (v : BitVec n) : (zext v).toNat = v.toNat :=
  BitVec.toNat_setWidth_of_le hn

/-- Settles O7: the extension lemmas at the widths of the fields. -/
theorem signExtensionIsExact : Obligations.SignExtensionIsExact := by
  have hfits : ∀ n ∈ [5, 6, 9, 11], n ≤ 16 := by decide
  exact ⟨fun n hn v => ⟨sext_eq_ite_or v, toInt_sext (hfits n hn) v, fun a => add_sext a v⟩,
    fun _ hn v => toNat_zext hn v⟩

end Sys2Proof.Machine

/-! Memory after reset (10_state.md R32). -/

namespace Sys2Proof.Machine

/-- A cell of the reset state, through the law of loaded images: the image inside the loaded region, the fill outside it. -/
theorem word_boot (config : Config) (start : Word) (image : List Word) (a : Word) :
    (State.boot config start image).word a =
      if h : start.toNat ≤ a.toNat ∧ a.toNat < start.toNat + image.length then
        image[a.toNat - start.toNat]'(by omega)
      else unlistedWord start config.sentinelBelow config.sentinelAbove a.toNat :=
  readCell_imageCells start.toNat image a.toNat

/-- Settles O57: an address is below the loaded region, in it, or past its end. That the load fits is not needed: memory is read
at Words only, so no cell past 0xFFFF is seen. -/
theorem resetMemoryContents : Obligations.ResetMemoryContents := by
  intro config start image _ a
  rw [word_boot]
  by_cases hbelow : a.toNat < start.toNat
  · have hout : ¬ (start.toNat ≤ a.toNat ∧ a.toNat < start.toNat + image.length) := by omega
    rw [dif_neg hout, if_pos hbelow, unlistedWord, if_pos hbelow]
  · by_cases hin : a.toNat - start.toNat < image.length
    · have hloaded : start.toNat ≤ a.toNat ∧ a.toNat < start.toNat + image.length := by omega
      rw [dif_pos hloaded, if_neg hbelow, dif_pos hin]
    · have hout : ¬ (start.toNat ≤ a.toNat ∧ a.toNat < start.toNat + image.length) := by omega
      rw [dif_neg hout, if_neg hbelow, dif_neg hin, unlistedWord, if_neg hbelow]

end Sys2Proof.Machine

/-! The checked write (20_memory.md R56): the frame of `State.setWord`, and what `MemWrite` does with it. -/

namespace Sys2Proof.Machine

theorem keepsMemoryBut_setWord (a v : Word) (s : State) : KeepsMemoryBut [a] s (s.setWord a v) :=
  fun _ hb => word_setWord_other v (List.ne_of_not_mem_cons hb)

/-- Memory is the only part of the state that a stored Word changes. -/
theorem setWord_with_mem (a v : Word) (s : State) : { s.setWord a v with mem := s.mem } = s := rfl

/-- Settles O30: on an accessible address the write is `State.setWord`, with its frame; on any other it is the error alone. -/
theorem checkedWriteReplacesOneWord : Obligations.CheckedWriteReplacesOneWord := by
  intro a v s
  constructor
  · intro haccess
    exact ⟨s.setWord a v, memWrite_go haccess, word_setWord_same a v, keepsMemoryBut_setWord a v s,
      setWord_with_mem a v s⟩
  · intro kind herror
    exact memWrite_raise herror

end Sys2Proof.Machine

/-! The condition-code update (40_operate.md R120). -/

namespace Sys2Proof.Machine

/-- R120's own test: the sign of a Word is its bit 15. -/
theorem condOf_eq_ite_getLsbD (v : Word) :
    condOf v = if v.getLsbD 15 then 0b100#3 else if v = 0#16 then 0b010#3 else 0b001#3 := by
  rw [condOf, BitVec.msb_eq_getLsbD_last]

theorem oneFlagSet_setcc (v : Word) (s : State) : OneFlagSet (s.setcc v) := condOf_mem v

/-- The flags are the only part of the state that `setcc` changes. -/
theorem setcc_with_cond (v : Word) (s : State) : { s.setcc v with cond := s.cond } = s := rfl

/-- Settles O12: the value by R120's tests, then the laws of `condOf` and the frame of `setcc`. -/
theorem setccSetsExactlyOneFlag : Obligations.SetccSetsExactlyOneFlag := by
  intro s v
  exact ⟨condOf_eq_ite_getLsbD v, flagsShow_condOf (setcc_cond s v), oneFlagSet_setcc v s, setcc_with_cond v s⟩

end Sys2Proof.Machine

/-! Words below 0x0200: BR with mask 000 (41_control.md R141). -/

namespace Sys2Proof.Machine

/-- A field above every set bit of its Word is zero. -/
theorem field_eq_zero_of_toNat_lt {ir : Word} {lo : Nat} (width : Nat) (hsmall : ir.toNat < 2 ^ lo) :
    field ir lo width = 0#width := by
  apply BitVec.eq_of_toNat_eq
  rw [field, BitVec.extractLsb'_toNat, Nat.shiftRight_eq_div_pow, Nat.div_eq_of_lt hsmall, Nat.zero_mod,
    BitVec.toNat_zero]

theorem decode_of_opcode_br {ir : Word} (hopcode : field ir 12 4 = 0#4) :
    decode ir = .ok (.br (field ir 9 3) (field ir 0 9)) := by
  rw [decode, hopcode]; rfl

/-- A Word without a set bit in its opcode and its mask, all others free (R141). -/
theorem decode_of_toNat_le_01FF {ir : Word} (hsmall : ir.toNat ≤ 0x01FF) :
    decode ir = .ok (.br 0b000#3 (field ir 0 9)) := by
  have hopcode : field ir 12 4 = 0#4 := field_eq_zero_of_toNat_lt 4 (by omega)
  have hmask : field ir 9 3 = 0b000#3 := field_eq_zero_of_toNat_lt 3 (by omega)
  rw [decode_of_opcode_br hopcode, hmask]

theorem exec_br_mask_zero (offset9 : BitVec 9) (s : State) : exec (.br 0b000#3 offset9) s = .next s := by
  have hmiss : 0b000#3 &&& s.cond = 0#3 := BitVec.zero_and
  rw [exec, execBr, if_neg (not_not_intro hmiss)]

theorem fetch_of_instruction {s : State} (haccess : Accessible s.pc s) (hbelow : s.word s.pc ≠ s.config.sentinelBelow)
    (habove : s.word s.pc ≠ s.config.sentinelAbove) : fetch s = .word (s.word s.pc) (s.setPc (s.pc + 1)) := by
  simp [fetch, checkAddr_none.mpr haccess, sentinelGuard, hbelow, habove]

/-- Steps 5 to 8 of the instruction cycle (30_encoding.md R100), after a fetch that gave a Word. -/
theorem step_of_fetch {s t : State} {ir : Word} {i : Instr} (hrun : s.run = .running) (hnew : s.inProgress = none)
    (hfetch : fetch s = .word ir t) (hdecode : decode ir = .ok i) : step s = exec i t := by
  simp only [step, hrun, hnew, hfetch, hdecode]

/-- Settles O20: the Word fetched decodes to BR with mask 000, which changes nothing after the fetch increment. -/
theorem maskZeroNeverBranches : Obligations.MaskZeroNeverBranches := by
  refine ⟨?_, exec_br_mask_zero⟩
  intro s hrun hnew haccess hbelow habove hsmall
  calc step s
      = exec (.br 0b000#3 (field (s.word s.pc) 0 9)) (s.setPc (s.pc + 1)) :=
        step_of_fetch hrun hnew (fetch_of_instruction haccess hbelow habove) (decode_of_toNat_le_01FF hsmall)
    _ = .next (s.setPc (s.pc + 1)) := exec_br_mask_zero _ _

end Sys2Proof.Machine

/-! Raising an error (60_exceptions.md R228, R234). -/

namespace Sys2Proof.Machine

theorem setRun_with_run (r : RunState) (s : State) : { s.setRun r with run := s.run } = s := rfl

/-- A terminal state has no successor (10_state.md R36). -/
theorem step_ne_next_of_run_ne_running {s : State} (hterminal : s.run ≠ .running) (u : State) : step s ≠ .next u := by
  intro hstep
  obtain ⟨hrunning, -⟩ := step_cases hstep
  exact hterminal hrunning

/-- Settles O46: `raise` answers the state with `run` set, which is no longer running. -/
theorem raiseWritesOnlyTheRunState : Obligations.RaiseWritesOnlyTheRunState := by
  intro kind s
  have hterminal : (s.setRun (.faulted kind)).run ≠ .running := by simp
  exact ⟨s.setRun (.faulted kind), rfl, setRun_run s _, setRun_with_run _ s, step_ne_next_of_run_ne_running hterminal⟩

end Sys2Proof.Machine

/-! Object files (70_reset_and_hazards.md R264, R265). -/

namespace Sys2Proof.Machine

/-- The bytes of Words on the wire: what `wireWords` reads back (`wireWords_wireBytes_append`). -/
def wireBytes (words : List Word) : List Byte := words.flatMap fun w => [field w 8 8, field w 0 8]

theorem wireWords_wireBytes_append (words : List Word) {trailing : List Byte} (hshort : trailing.length ≤ 1) :
    wireWords (wireBytes words ++ trailing) = words := by
  rw [wireBytes, wireWords_flatMap_append, wireWords_short hshort, List.append_nil]

theorem length_wireBytes (words : List Word) : (wireBytes words).length = 2 * words.length := by
  simp [wireBytes, List.length_flatMap, Nat.mul_comm]

theorem loadWords_of_fits (config : Config) {origin : Word} {payload : List Word}
    (hfits : payload.length ≤ 65536 - origin.toNat) :
    loadWords config (origin :: payload) = .ok (State.boot config origin payload) := if_pos hfits

theorem loadWords_of_too_long (config : Config) {origin : Word} {payload : List Word}
    (hlong : 65536 - origin.toNat < payload.length) :
    loadWords config (origin :: payload) = .error .fileTooLong := if_neg (Nat.not_le.mpr hlong)

theorem loadBytes_of_error {config : Config} {file : List Byte} {e : LoadError}
    (hload : loadWords config (wireWords file) = .error e) : loadBytes config file = some (.error e) := by
  rw [loadBytes, hload]

theorem loadBytes_of_ok {config : Config} {file : List Byte} {s : State}
    (hload : loadWords config (wireWords file) = .ok s) (heven : file.length % 2 = 0) :
    loadBytes config file = some (.ok s) := by
  simp only [loadBytes, hload, if_pos heven]

theorem loadBytes_of_length_le_one (config : Config) {file : List Byte} (hshort : file.length ≤ 1) :
    loadBytes config file = some (.error .fileTooShort) := by
  apply loadBytes_of_error
  rw [wireWords_short hshort, loadWords]

theorem loadBytes_wireBytes_of_fits (config : Config) {origin : Word} {payload : List Word}
    (hfits : payload.length ≤ 65536 - origin.toNat) :
    loadBytes config (wireBytes (origin :: payload)) = some (.ok (State.boot config origin payload)) := by
  have hwords : wireWords (wireBytes (origin :: payload)) = origin :: payload := by
    simpa using wireWords_wireBytes_append (origin :: payload) (trailing := []) (Nat.zero_le 1)
  apply loadBytes_of_ok
  · rw [hwords, loadWords_of_fits config hfits]
  · rw [length_wireBytes, Nat.mul_mod_right]

theorem loadBytes_wireBytes_of_too_long (config : Config) {origin : Word} {payload : List Word} {trailing : List Byte}
    (hshort : trailing.length ≤ 1) (hlong : 65536 - origin.toNat < payload.length) :
    loadBytes config (wireBytes (origin :: payload) ++ trailing) = some (.error .fileTooLong) := by
  apply loadBytes_of_error
  rw [wireWords_wireBytes_append _ hshort, loadWords_of_too_long config hlong]

/-- Settles O60: the Words read back are the origin and the payload, and the payload's length decides between the reset state and
`FileTooLong`. The bytes written out in the statement are `wireBytes (origin :: payload)` by definition. -/
theorem objectFileIsBigEndian : Obligations.ObjectFileIsBigEndian := by
  intro config origin payload trailing hshort
  exact ⟨loadBytes_of_length_le_one config hshort, fun hfits => loadBytes_wireBytes_of_fits config hfits,
    fun hlong => loadBytes_wireBytes_of_too_long config hshort hlong⟩

end Sys2Proof.Machine

/-! The decoder: its rows by opcode (30_encoding.md R90, R102), and what a decoded or a refused Word looks like. -/

namespace Sys2Proof.Machine

/-! ### The decoder at each opcode -/

section opcode
variable {ir : Word}

theorem decode_of_opcode_add (h : field ir 12 4 = 0x1#4) : decode ir =
    if field ir 5 1 = 1#1 then .ok (.addImm (regField ir 9) (regField ir 6) (field ir 0 5))
    else padded (field ir 3 2 = 0#2) (.addReg (regField ir 9) (regField ir 6) (regField ir 0)) := by
  rw [decode, h]; rfl

theorem decode_of_opcode_ld (h : field ir 12 4 = 0x2#4) : decode ir = .ok (.ld (regField ir 9) (field ir 0 9)) := by
  rw [decode, h]; rfl

theorem decode_of_opcode_st (h : field ir 12 4 = 0x3#4) : decode ir = .ok (.st (regField ir 9) (field ir 0 9)) := by
  rw [decode, h]; rfl

theorem decode_of_opcode_jsr (h : field ir 12 4 = 0x4#4) : decode ir =
    if field ir 11 1 = 1#1 then .ok (.jsr (field ir 0 11))
    else padded (field ir 9 2 = 0#2) (.jsrr (regField ir 6)) := by
  rw [decode, h]; rfl

theorem decode_of_opcode_and (h : field ir 12 4 = 0x5#4) : decode ir =
    if field ir 5 1 = 1#1 then .ok (.andImm (regField ir 9) (regField ir 6) (field ir 0 5))
    else padded (field ir 3 2 = 0#2) (.andReg (regField ir 9) (regField ir 6) (regField ir 0)) := by
  rw [decode, h]; rfl

theorem decode_of_opcode_ldr (h : field ir 12 4 = 0x6#4) :
    decode ir = .ok (.ldr (regField ir 9) (regField ir 6) (field ir 0 6)) := by
  rw [decode, h]; rfl

theorem decode_of_opcode_str (h : field ir 12 4 = 0x7#4) :
    decode ir = .ok (.str (regField ir 9) (regField ir 6) (field ir 0 6)) := by
  rw [decode, h]; rfl

theorem decode_of_opcode_rti (h : field ir 12 4 = 0x8#4) : decode ir = .ok .rti := by
  rw [decode, h]; rfl

theorem decode_of_opcode_not (h : field ir 12 4 = 0x9#4) :
    decode ir = padded (field ir 0 5 = 0b11111#5) (.not (regField ir 9) (regField ir 6)) := by
  rw [decode, h]; rfl

theorem decode_of_opcode_ldi (h : field ir 12 4 = 0xA#4) : decode ir = .ok (.ldi (regField ir 9) (field ir 0 9)) := by
  rw [decode, h]; rfl

theorem decode_of_opcode_sti (h : field ir 12 4 = 0xB#4) : decode ir = .ok (.sti (regField ir 9) (field ir 0 9)) := by
  rw [decode, h]; rfl

theorem decode_of_opcode_jmp (h : field ir 12 4 = 0xC#4) :
    decode ir = padded (field ir 9 3 = 0#3 && field ir 0 6 = 0#6) (.jmp (regField ir 6)) := by
  rw [decode, h]; rfl

theorem decode_of_opcode_reserved (h : field ir 12 4 = 0xD#4) : decode ir = .ok .reserved1101 := by
  rw [decode, h]; rfl

theorem decode_of_opcode_lea (h : field ir 12 4 = 0xE#4) : decode ir = .ok (.lea (regField ir 9) (field ir 0 9)) := by
  rw [decode, h]; rfl

theorem decode_of_opcode_trap (h : field ir 12 4 = 0xF#4) :
    decode ir = padded (field ir 8 4 = 0#4) (decodeTrap (field ir 0 8)) := by
  rw [decode, h]; rfl

end opcode

@[simp] theorem padded_of_good {good : Bool} (h : good = true) (i : Instr) : padded good i = .ok i := if_pos h

@[simp] theorem padded_of_bad {good : Bool} (h : good = false) (i : Instr) :
    padded good i = .error .malformedPadding := by
  rw [padded, h]; rfl

theorem trap_wellFormed_iff {v : BitVec 8} : (Instr.trap v).WellFormed ↔ v ∉ knownTrapVectors := by
  rw [Instr.WellFormed, Instr.wellFormed, Bool.not_eq_true', ← Bool.not_eq_true, List.contains_iff_mem]

/-- Settles O1, instruction by instruction: the row of its opcode reads the fields of its format back. -/
theorem decodeEncodeRoundTrip : Obligations.DecodeEncodeRoundTrip := by
  intro i hwf
  cases i with
  | addReg dr sr1 sr2 => simp [encode, decode_of_opcode_add, regField, threeFields_low]
  | addImm dr sr1 imm5 => simp [encode, decode_of_opcode_add, regField, threeFields_low]
  | andReg dr sr1 sr2 => simp [encode, decode_of_opcode_and, regField, threeFields_low]
  | andImm dr sr1 imm5 => simp [encode, decode_of_opcode_and, regField, threeFields_low]
  | not dr sr => simp [encode, decode_of_opcode_not, regField, threeFields_low]
  | br mask offset9 => simp [encode, decode_of_opcode_br]
  | jmp baseR => simp [encode, decode_of_opcode_jmp, regField, threeFields_low]
  | jsr offset11 => simp [encode, decode_of_opcode_jsr]
  | jsrr baseR => simp [encode, decode_of_opcode_jsr, regField, threeFields_bit11, threeFields_bits9_10]
  | ld dr offset9 => simp [encode, decode_of_opcode_ld, regField]
  | st sr offset9 => simp [encode, decode_of_opcode_st, regField]
  | ldi dr offset9 => simp [encode, decode_of_opcode_ldi, regField]
  | sti sr offset9 => simp [encode, decode_of_opcode_sti, regField]
  | lea dr offset9 => simp [encode, decode_of_opcode_lea, regField]
  | ldr dr baseR offset6 => simp [encode, decode_of_opcode_ldr, regField, threeFields_low]
  | str sr baseR offset6 => simp [encode, decode_of_opcode_str, regField, threeFields_low]
  | trap v =>
    simp [encode, decode_of_opcode_trap, decodeTrap_unknown (trap_wellFormed_iff.mp hwf)]
  | getc => decide
  | out => decide
  | puts => decide
  | in_ => decide
  | putsp => decide
  | halt => decide
  | rti => decide
  | reserved1101 => decide

/-! ### What the decoder answers -/

/-- The rows of the decoder: which fields of a Word give which answer (30_encoding.md R90, R95). -/
inductive DecodeRow (ir : Word) : Except ErrorKind Instr → Prop where
  | br (op : field ir 12 4 = 0x0#4) : DecodeRow ir (.ok (.br (field ir 9 3) (field ir 0 9)))
  | addImm (op : field ir 12 4 = 0x1#4) (mode : field ir 5 1 = 1#1) :
      DecodeRow ir (.ok (.addImm (regField ir 9) (regField ir 6) (field ir 0 5)))
  | addReg (op : field ir 12 4 = 0x1#4) (mode : field ir 5 1 = 0#1) (padding : field ir 3 2 = 0#2) :
      DecodeRow ir (.ok (.addReg (regField ir 9) (regField ir 6) (regField ir 0)))
  | addPadding (op : field ir 12 4 = 0x1#4) (mode : field ir 5 1 = 0#1) (padding : field ir 3 2 ≠ 0#2) :
      DecodeRow ir (.error .malformedPadding)
  | ld (op : field ir 12 4 = 0x2#4) : DecodeRow ir (.ok (.ld (regField ir 9) (field ir 0 9)))
  | st (op : field ir 12 4 = 0x3#4) : DecodeRow ir (.ok (.st (regField ir 9) (field ir 0 9)))
  | jsr (op : field ir 12 4 = 0x4#4) (mode : field ir 11 1 = 1#1) : DecodeRow ir (.ok (.jsr (field ir 0 11)))
  | jsrr (op : field ir 12 4 = 0x4#4) (mode : field ir 11 1 = 0#1) (padding : field ir 9 2 = 0#2) :
      DecodeRow ir (.ok (.jsrr (regField ir 6)))
  | jsrrPadding (op : field ir 12 4 = 0x4#4) (mode : field ir 11 1 = 0#1) (padding : field ir 9 2 ≠ 0#2) :
      DecodeRow ir (.error .malformedPadding)
  | andImm (op : field ir 12 4 = 0x5#4) (mode : field ir 5 1 = 1#1) :
      DecodeRow ir (.ok (.andImm (regField ir 9) (regField ir 6) (field ir 0 5)))
  | andReg (op : field ir 12 4 = 0x5#4) (mode : field ir 5 1 = 0#1) (padding : field ir 3 2 = 0#2) :
      DecodeRow ir (.ok (.andReg (regField ir 9) (regField ir 6) (regField ir 0)))
  | andPadding (op : field ir 12 4 = 0x5#4) (mode : field ir 5 1 = 0#1) (padding : field ir 3 2 ≠ 0#2) :
      DecodeRow ir (.error .malformedPadding)
  | ldr (op : field ir 12 4 = 0x6#4) : DecodeRow ir (.ok (.ldr (regField ir 9) (regField ir 6) (field ir 0 6)))
  | str (op : field ir 12 4 = 0x7#4) : DecodeRow ir (.ok (.str (regField ir 9) (regField ir 6) (field ir 0 6)))
  | rti (op : field ir 12 4 = 0x8#4) : DecodeRow ir (.ok .rti)
  | not (op : field ir 12 4 = 0x9#4) (padding : field ir 0 5 = 0b11111#5) :
      DecodeRow ir (.ok (.not (regField ir 9) (regField ir 6)))
  | notPadding (op : field ir 12 4 = 0x9#4) (padding : field ir 0 5 ≠ 0b11111#5) :
      DecodeRow ir (.error .malformedPadding)
  | ldi (op : field ir 12 4 = 0xA#4) : DecodeRow ir (.ok (.ldi (regField ir 9) (field ir 0 9)))
  | sti (op : field ir 12 4 = 0xB#4) : DecodeRow ir (.ok (.sti (regField ir 9) (field ir 0 9)))
  | jmp (op : field ir 12 4 = 0xC#4) (high : field ir 9 3 = 0#3) (low : field ir 0 6 = 0#6) :
      DecodeRow ir (.ok (.jmp (regField ir 6)))
  | jmpPadding (op : field ir 12 4 = 0xC#4) (padding : field ir 9 3 ≠ 0#3 ∨ field ir 0 6 ≠ 0#6) :
      DecodeRow ir (.error .malformedPadding)
  | reserved1101 (op : field ir 12 4 = 0xD#4) : DecodeRow ir (.ok .reserved1101)
  | lea (op : field ir 12 4 = 0xE#4) : DecodeRow ir (.ok (.lea (regField ir 9) (field ir 0 9)))
  | trap (op : field ir 12 4 = 0xF#4) (padding : field ir 8 4 = 0#4) :
      DecodeRow ir (.ok (decodeTrap (field ir 0 8)))
  | trapPadding (op : field ir 12 4 = 0xF#4) (padding : field ir 8 4 ≠ 0#4) :
      DecodeRow ir (.error .malformedPadding)

theorem padded_decide {P : Except ErrorKind Instr → Prop} {p : Prop} [Decidable p] {i : Instr}
    (good : p → P (.ok i)) (bad : ¬ p → P (.error .malformedPadding)) : P (padded p i) := by
  by_cases h : p
  · rw [padded_of_good (decide_eq_true h)]; exact good h
  · rw [padded_of_bad (decide_eq_false h)]; exact bad h

theorem bit_ne_one {b : BitVec 1} (h : b ≠ 1#1) : b = 0#1 := by
  revert b; decide

/-- The decoder answers as its rows say. -/
theorem decode_row (ir : Word) : DecodeRow ir (decode ir) := by
  match op : field ir 12 4 with
  | 0x0#4 => exact decode_of_opcode_br op ▸ .br op
  | 0x1#4 =>
    rw [decode_of_opcode_add op]
    split
    · exact .addImm op ‹_›
    · exact padded_decide (.addReg op (bit_ne_one ‹_›)) (.addPadding op (bit_ne_one ‹_›))
  | 0x2#4 => exact decode_of_opcode_ld op ▸ .ld op
  | 0x3#4 => exact decode_of_opcode_st op ▸ .st op
  | 0x4#4 =>
    rw [decode_of_opcode_jsr op]
    split
    · exact .jsr op ‹_›
    · exact padded_decide (.jsrr op (bit_ne_one ‹_›)) (.jsrrPadding op (bit_ne_one ‹_›))
  | 0x5#4 =>
    rw [decode_of_opcode_and op]
    split
    · exact .andImm op ‹_›
    · exact padded_decide (.andReg op (bit_ne_one ‹_›)) (.andPadding op (bit_ne_one ‹_›))
  | 0x6#4 => exact decode_of_opcode_ldr op ▸ .ldr op
  | 0x7#4 => exact decode_of_opcode_str op ▸ .str op
  | 0x8#4 => exact decode_of_opcode_rti op ▸ .rti op
  | 0x9#4 =>
    rw [decode_of_opcode_not op]
    exact padded_decide (.not op) (.notPadding op)
  | 0xA#4 => exact decode_of_opcode_ldi op ▸ .ldi op
  | 0xB#4 => exact decode_of_opcode_sti op ▸ .sti op
  | 0xC#4 =>
    rw [decode_of_opcode_jmp op]
    by_cases high : field ir 9 3 = 0#3
    · by_cases low : field ir 0 6 = 0#6
      · simpa [high, low] using .jmp op high low
      · simpa [low] using .jmpPadding op (.inr low)
    · simpa [high] using .jmpPadding op (.inl high)
  | 0xD#4 => exact decode_of_opcode_reserved op ▸ .reserved1101 op
  | 0xE#4 => exact decode_of_opcode_lea op ▸ .lea op
  | 0xF#4 =>
    rw [decode_of_opcode_trap op]
    exact padded_decide (.trap op) (.trapPadding op)
  | ⟨⟨n + 16, hn⟩⟩ => exact absurd hn (by omega)

end Sys2Proof.Machine

/-! A decoded Word against its instruction's encoding (30_encoding.md section 4). -/

namespace Sys2Proof.Machine

/-- A field of the low six bits. -/
theorem extractLsb'_field_low (ir : Word) {lo width : Nat} (h : lo + width ≤ 6) :
    (field ir 0 6).extractLsb' lo width = field ir lo width :=
  BitVec.extractLsb'_extractLsb'_of_le h

theorem registerMode_field {ir : Word} (mode : field ir 5 1 = 0#1) (padding : field ir 3 2 = 0#2) :
    registerMode (regField ir 0) = field ir 0 6 := by
  have h : ∀ low : BitVec 6, low.extractLsb' 5 1 = 0#1 → low.extractLsb' 3 2 = 0#2 →
      registerMode (low.extractLsb' 0 3).toFin = low := by decide
  have hlow := h (field ir 0 6)
  rw [extractLsb'_field_low ir (by decide), extractLsb'_field_low ir (by decide),
    extractLsb'_field_low ir (by decide)] at hlow
  exact hlow mode padding

theorem immediateMode_field {ir : Word} (mode : field ir 5 1 = 1#1) : immediateMode (field ir 0 5) = field ir 0 6 := by
  have h : ∀ low : BitVec 6, low.extractLsb' 5 1 = 1#1 → immediateMode (low.extractLsb' 0 5) = low := by decide
  have hlow := h (field ir 0 6)
  rw [extractLsb'_field_low ir (by decide), extractLsb'_field_low ir (by decide)] at hlow
  exact hlow mode

theorem field_9_3_eq_zero {ir : Word} (mode : field ir 11 1 = 0#1) (padding : field ir 9 2 = 0#2) :
    field ir 9 3 = 0#3 := by
  have h : ∀ high : BitVec 3, high.extractLsb' 2 1 = 0#1 → high.extractLsb' 0 2 = 0#2 → high = 0#3 := by decide
  refine h (field ir 9 3) ?_ ?_
  · rw [← threeFields_bit11, ← eq_threeFields]; exact mode
  · rw [← threeFields_bits9_10, ← eq_threeFields]; exact padding

/-- NOT's low six bits but its ignored bit 5. -/
theorem not_low_xor_and {ir : Word} (padding : field ir 0 5 = 0b11111#5) :
    (0b111111#6 ^^^ field ir 0 6) &&& 0b011111#6 = 0#6 := by
  have h : ∀ low : BitVec 6, low.extractLsb' 0 5 = 0b11111#5 → (0b111111#6 ^^^ low) &&& 0b011111#6 = 0#6 := by decide
  exact h _ ((extractLsb'_field_low ir (by decide)).trans padding)

section word
variable {ir : Word} {op : BitVec 4}

theorem twoFields_of_opcode (hop : field ir 12 4 = op) : twoFields op (field ir 9 3) (field ir 0 9) = ir := by
  rw [← hop]; exact (eq_twoFields ir).symm

theorem threeFields_of_opcode {low : BitVec 6} (hop : field ir 12 4 = op) (hlow : low = field ir 0 6) :
    threeFields op (field ir 9 3) (field ir 6 3) low = ir := by
  rw [← hop, hlow]; exact (eq_threeFields ir).symm

end word

theorem threeFields_low_all (op : BitVec 4) (high mid : BitVec 3) (low : BitVec 6) :
    field (threeFields op high mid low) 0 6 = low := by
  rw [threeFields_low op high mid low (by decide), BitVec.extractLsb'_eq_self]

theorem field_xor_and (a b mask : Word) (lo width : Nat) : field ((a ^^^ b) &&& mask) lo width =
    (field a lo width ^^^ field b lo width) &&& field mask lo width := by
  simp only [field, BitVec.extractLsb'_and, BitVec.extractLsb'_xor]

/-- Two Words agree under a mask when their fields agree under the mask's fields. -/
theorem xor_and_eq_zero {ir mask : Word} {op : BitVec 4} {high mid : BitVec 3} {low : BitVec 6}
    (hop : (op ^^^ field ir 12 4) &&& field mask 12 4 = 0#4) (hhigh : (high ^^^ field ir 9 3) &&& field mask 9 3 = 0#3)
    (hmid : (mid ^^^ field ir 6 3) &&& field mask 6 3 = 0#3) (hlow : (low ^^^ field ir 0 6) &&& field mask 0 6 = 0#6) :
    (threeFields op high mid low ^^^ ir) &&& mask = 0#16 := by
  rw [eq_threeFields ((threeFields op high mid low ^^^ ir) &&& mask)]
  simp only [field_xor_and, threeFields_op, threeFields_high, threeFields_mid, threeFields_low_all, hop, hhigh, hmid,
    hlow]
  rfl

theorem reencodes_of_eq {ir : Word} {i : Instr} (h : encode i = ir) :
    (encode i ^^^ ir) &&& ~~~(ignoredBits i) = 0#16 := by
  rw [h, BitVec.xor_self, BitVec.zero_and]

theorem decodeTrap_wellFormed (v : BitVec 8) : (decodeTrap v).WellFormed := by
  rcases decodeTrap_cases v with ⟨hv, h⟩ | ⟨-, h⟩ | ⟨-, h⟩ | ⟨-, h⟩ | ⟨-, h⟩ | ⟨-, h⟩ | ⟨-, h⟩
  · rw [h]; exact trap_wellFormed_iff.mpr hv
  all_goals rw [h]; rfl

theorem encode_decodeTrap (v : BitVec 8) : encode (decodeTrap v) = trapFields 0xF#4 0#4 v := by
  rcases decodeTrap_cases v with ⟨-, h⟩ | ⟨rfl, h⟩ | ⟨rfl, h⟩ | ⟨rfl, h⟩ | ⟨rfl, h⟩ | ⟨rfl, h⟩ | ⟨rfl, h⟩
  all_goals rw [h]; rfl

/-- Settles O2, row by row: the fields the decoder reads are the fields the encoder writes. -/
theorem decodedWordReencodes : Obligations.DecodedWordReencodes := by
  intro ir i hdecode
  have row := decode_row ir
  rw [hdecode] at row
  cases row with
  | br op => exact ⟨rfl, reencodes_of_eq (twoFields_of_opcode op)⟩
  | addImm op mode => exact ⟨rfl, reencodes_of_eq (threeFields_of_opcode op (immediateMode_field mode))⟩
  | addReg op mode padding => exact ⟨rfl, reencodes_of_eq (threeFields_of_opcode op (registerMode_field mode padding))⟩
  | ld op => exact ⟨rfl, reencodes_of_eq (twoFields_of_opcode op)⟩
  | st op => exact ⟨rfl, reencodes_of_eq (twoFields_of_opcode op)⟩
  | jsr op mode =>
    have h := eq_jsrFields ir
    rw [op, mode] at h
    exact ⟨rfl, reencodes_of_eq h.symm⟩
  | jsrr op mode padding =>
    refine ⟨rfl, xor_and_eq_zero (mask := ~~~0x003F#16) ?_ ?_ ?_ BitVec.and_zero⟩
    · rw [op]; rfl
    · rw [field_9_3_eq_zero mode padding]; rfl
    · simp [regField]
  | andImm op mode => exact ⟨rfl, reencodes_of_eq (threeFields_of_opcode op (immediateMode_field mode))⟩
  | andReg op mode padding => exact ⟨rfl, reencodes_of_eq (threeFields_of_opcode op (registerMode_field mode padding))⟩
  | ldr op => exact ⟨rfl, reencodes_of_eq (threeFields_of_opcode op rfl)⟩
  | str op => exact ⟨rfl, reencodes_of_eq (threeFields_of_opcode op rfl)⟩
  | rti op =>
    refine ⟨rfl, xor_and_eq_zero ?_ BitVec.and_zero BitVec.and_zero BitVec.and_zero⟩
    rw [op]; rfl
  | not op padding =>
    refine ⟨rfl, xor_and_eq_zero (mask := ~~~0x0020#16) ?_ ?_ ?_ (not_low_xor_and padding)⟩
    · rw [op]; rfl
    · simp [regField]
    · simp [regField]
  | ldi op => exact ⟨rfl, reencodes_of_eq (twoFields_of_opcode op)⟩
  | sti op => exact ⟨rfl, reencodes_of_eq (twoFields_of_opcode op)⟩
  | jmp op high low =>
    have h := eq_threeFields ir
    rw [op, high, low] at h
    exact ⟨rfl, reencodes_of_eq h.symm⟩
  | reserved1101 op =>
    refine ⟨rfl, xor_and_eq_zero ?_ BitVec.and_zero BitVec.and_zero BitVec.and_zero⟩
    rw [op]; rfl
  | lea op => exact ⟨rfl, reencodes_of_eq (twoFields_of_opcode op)⟩
  | trap op padding =>
    have h := eq_trapFields ir
    rw [op, padding, ← encode_decodeTrap] at h
    exact ⟨decodeTrap_wellFormed _, reencodes_of_eq h.symm⟩

end Sys2Proof.Machine

/-! The opcode table's rows (30_encoding.md R107), ignored bits (R96) and refused Words (R95). -/

namespace Sys2Proof.Machine

/-! ### Rows -/

theorem threeFields_and (op op' : BitVec 4) (high high' mid mid' : BitVec 3) (low low' : BitVec 6) :
    threeFields op high mid low &&& threeFields op' high' mid' low' =
      threeFields (op &&& op') (high &&& high') (mid &&& mid') (low &&& low') := by
  apply BitVec.eq_of_getLsbD_eq; intro i hi
  simp only [BitVec.getLsbD_and, getLsbD_threeFields]
  split_ifs <;> rfl

theorem jsrFields_and (op op' : BitVec 4) (mode mode' : BitVec 1) (low low' : BitVec 11) :
    jsrFields op mode low &&& jsrFields op' mode' low' = jsrFields (op &&& op') (mode &&& mode') (low &&& low') := by
  apply BitVec.eq_of_getLsbD_eq; intro i hi
  simp only [BitVec.getLsbD_and, getLsbD_jsrFields]
  split_ifs <;> rfl

theorem trapFields_and (op op' padding padding' : BitVec 4) (low low' : BitVec 8) :
    trapFields op padding low &&& trapFields op' padding' low' =
      trapFields (op &&& op') (padding &&& padding') (low &&& low') := by
  apply BitVec.eq_of_getLsbD_eq; intro i hi
  simp only [BitVec.getLsbD_and, getLsbD_trapFields]
  split_ifs <;> rfl

/-- A mask that covers the opcode and part of the low six bits: the rows of the operate instructions. -/
theorem threeFields_and_low {op : BitVec 4} {low mask value : BitVec 6} (high mid : BitVec 3)
    (hlow : low &&& mask = value) :
    threeFields op high mid low &&& threeFields 0xF#4 0#3 0#3 mask = threeFields op 0#3 0#3 value := by
  rw [threeFields_and, hlow, BitVec.and_zero, BitVec.and_zero, show op &&& 0xF#4 = op from BitVec.and_allOnes]

theorem threeFields_and_opcode (op : BitVec 4) (high mid : BitVec 3) (low : BitVec 6) :
    threeFields op high mid low &&& 0xF000#16 = threeFields op 0#3 0#3 0#6 :=
  threeFields_and_low high mid BitVec.and_zero

theorem twoFields_and_opcode (op : BitVec 4) (high : BitVec 3) (low : BitVec 9) :
    twoFields op high low &&& 0xF000#16 = threeFields op 0#3 0#3 0#6 := by
  rw [eq_threeFields (twoFields op high low), threeFields_and_opcode, twoFields_op]

theorem registerMode_and (r : RegId) : registerMode r &&& 0b111000#6 = 0b000000#6 := by revert r; decide

theorem immediateMode_and (imm5 : BitVec 5) : immediateMode imm5 &&& 0b100000#6 = 0b100000#6 := by revert imm5; decide

/-- An instruction's encoding lies in its row. -/
theorem encode_and_mask (i : Instr) : encode i &&& (tableRow i).mask = (tableRow i).pattern := by
  cases i with
  | addReg dr sr1 sr2 => exact threeFields_and_low _ _ (registerMode_and sr2)
  | addImm dr sr1 imm5 => exact threeFields_and_low _ _ (immediateMode_and imm5)
  | andReg dr sr1 sr2 => exact threeFields_and_low _ _ (registerMode_and sr2)
  | andImm dr sr1 imm5 => exact threeFields_and_low _ _ (immediateMode_and imm5)
  | not dr sr => exact threeFields_and_low (mask := 0b011111#6) (value := 0b011111#6) _ _ rfl
  | br mask offset9 => exact twoFields_and_opcode _ _ _
  | jmp baseR =>
    refine (threeFields_and 0xC#4 0xF#4 0#3 7#3 (regBits baseR) 0#3 0#6 0x3F#6).trans ?_
    rw [BitVec.and_zero]; rfl
  | jsr offset11 =>
    refine (jsrFields_and 0x4#4 0xF#4 1#1 1#1 offset11 0#11).trans ?_
    rw [BitVec.and_zero]; rfl
  | jsrr baseR =>
    refine (threeFields_and 0x4#4 0xF#4 0#3 7#3 (regBits baseR) 0#3 0#6 0#6).trans ?_
    rw [BitVec.and_zero]; rfl
  | ld dr offset9 => exact twoFields_and_opcode _ _ _
  | st sr offset9 => exact twoFields_and_opcode _ _ _
  | ldi dr offset9 => exact twoFields_and_opcode _ _ _
  | sti sr offset9 => exact twoFields_and_opcode _ _ _
  | lea dr offset9 => exact twoFields_and_opcode _ _ _
  | ldr dr baseR offset6 => exact threeFields_and_opcode _ _ _ _
  | str sr baseR offset6 => exact threeFields_and_opcode _ _ _ _
  | trap v =>
    refine (trapFields_and 0xF#4 0xF#4 0#4 0xF#4 v 0#8).trans ?_
    rw [BitVec.and_zero]; rfl
  | getc => rfl
  | out => rfl
  | puts => rfl
  | in_ => rfl
  | putsp => rfl
  | halt => rfl
  | rti => rfl
  | reserved1101 => rfl

/-- A row asks nothing of a bit that the engine ignores. -/
theorem mask_and_ignoredBits (i : Instr) : (tableRow i).mask &&& ignoredBits i = 0#16 := by
  cases i <;> simp [tableRow, ignoredBits]

/-- Words that differ only in ignored bits read alike under a mask without them. -/
theorem and_mask_eq {a b ignored mask : Word} (hbits : (a ^^^ b) &&& ~~~ignored = 0#16)
    (hdisjoint : mask &&& ignored = 0#16) : b &&& mask = a &&& mask := by
  ext k hk
  have hbit : ((a ^^^ b) &&& ~~~ignored)[k] = false := by rw [hbits]; simp
  have hmask : (mask &&& ignored)[k] = false := by rw [hdisjoint]; simp
  revert hbit hmask
  simp only [BitVec.getElem_and, BitVec.getElem_xor, BitVec.getElem_not]
  cases a[k] <;> cases b[k] <;> cases ignored[k] <;> simp

/-- Settles O5: under its row's mask the Word is its instruction's encoding, which lies in the row. -/
theorem decodedWordLiesInItsTableRow : Obligations.DecodedWordLiesInItsTableRow := by
  intro ir i hdecode
  obtain ⟨hwf, hbits⟩ := decodedWordReencodes ir i hdecode
  constructor
  · exact (and_mask_eq hbits (mask_and_ignoredBits i)).trans (encode_and_mask i)
  · rintro v rfl
    exact trap_wellFormed_iff.mp hwf

/-! ### Ignored bits and refused Words -/

theorem field_xor (a b : Word) (lo width : Nat) : field (a ^^^ b) lo width = field a lo width ^^^ field b lo width :=
  BitVec.extractLsb'_xor

theorem decode_xor_bit5_of_not {ir : Word} (op : field ir 12 4 = 0x9#4) : decode (ir ^^^ 0x0020#16) = decode ir := by
  have hkept : ∀ lo width, field 0x0020#16 lo width = 0#width →
      field (ir ^^^ 0x0020#16) lo width = field ir lo width := by
    intro lo width hzero
    rw [field_xor, hzero, BitVec.xor_zero]
  rw [decode_of_opcode_not op, decode_of_opcode_not ((hkept 12 4 (by decide)).trans op)]
  simp only [regField, hkept 0 5 (by decide), hkept 9 3 (by decide), hkept 6 3 (by decide)]

/-- Replacing the low six bits changes no field above them. -/
theorem field_replace_low {lo width : Nat} (ir : Word) (low : BitVec 6) (hlo : 6 ≤ lo) (hfit : lo + width ≤ 16) :
    field ((ir &&& 0xFFC0#16) ||| low.setWidth 16) lo width = field ir lo width := by
  apply BitVec.eq_of_getLsbD_eq; intro i hi
  have hmask : ∀ j < 16, 6 ≤ j → (0xFFC0#16).getLsbD j = true := by decide
  simp [getLsbD_field, hmask (lo + i) (by omega) (by omega), BitVec.getLsbD_of_ge low (lo + i) (by omega)]

theorem field_field {ir : Word} {lo width lo' width' : Nat} (h : lo' + width' ≤ width) :
    (field ir lo width).extractLsb' lo' width' = field ir (lo + lo') width' := by
  apply BitVec.eq_of_getLsbD_eq; intro i hi
  rw [BitVec.getLsbD_extractLsb', getLsbD_field, getLsbD_field, decide_eq_true (show lo' + i < width by omega),
    Nat.add_assoc, Bool.true_and]

theorem decode_replace_low_of_jsrr {ir : Word} (low : BitVec 6) (hop : field ir 11 5 = 0b01000#5) :
    decode ((ir &&& 0xFFC0#16) ||| low.setWidth 16) = decode ir := by
  have op : field ir 12 4 = 0x4#4 := by
    rw [show 12 = 11 + 1 from rfl, ← field_field (width := 5) (by decide), hop]; rfl
  have mode : field ir 11 1 = 0#1 := by
    rw [show 11 = 11 + 0 from rfl, ← field_field (width := 5) (by decide), hop]; rfl
  have hkept : ∀ lo width, 6 ≤ lo → lo + width ≤ 16 →
      field ((ir &&& 0xFFC0#16) ||| low.setWidth 16) lo width = field ir lo width :=
    fun _ _ hlo hfit => field_replace_low ir low hlo hfit
  rw [decode_of_opcode_jsr op, decode_of_opcode_jsr ((hkept 12 4 (by omega) (by omega)).trans op)]
  simp only [regField, hkept 11 1 (by omega) (by omega), hkept 9 2 (by omega) (by omega),
    hkept 6 3 (by omega) (by omega), mode]
  rfl

/-- Settles O3: the rows read no ignored bit. -/
theorem ignoredBitsDecodeAlike : Obligations.IgnoredBitsDecodeAlike := by
  intro ir
  exact ⟨decode_xor_bit5_of_not, decode_replace_low_of_jsrr, decode_of_opcode_rti, decode_of_opcode_reserved⟩

theorem decode_error_kind {ir : Word} {kind : ErrorKind} (h : decode ir = .error kind) : kind = .malformedPadding := by
  have row := decode_row ir
  rw [h] at row
  cases row <;> rfl

/-- Settles O4: the refusing rows one way, the rows' own equations the other. -/
theorem refusedWordsAreTheSixPaddingCases : Obligations.RefusedWordsAreTheSixPaddingCases := by
  intro ir kind
  constructor
  · intro hdecode
    have row := decode_row ir
    rw [hdecode] at row
    cases row with
    | addPadding op mode padding => exact ⟨rfl, .inl ⟨op, mode, padding⟩⟩
    | andPadding op mode padding => exact ⟨rfl, .inr (.inl ⟨op, mode, padding⟩)⟩
    | notPadding op padding => exact ⟨rfl, .inr (.inr (.inl ⟨op, padding⟩))⟩
    | jmpPadding op padding => exact ⟨rfl, .inr (.inr (.inr (.inl ⟨op, padding⟩)))⟩
    | jsrrPadding op mode padding => exact ⟨rfl, .inr (.inr (.inr (.inr (.inl ⟨op, mode, padding⟩))))⟩
    | trapPadding op padding => exact ⟨rfl, .inr (.inr (.inr (.inr (.inr ⟨op, padding⟩))))⟩
  · rintro ⟨rfl, ⟨op, mode, padding⟩ | ⟨op, mode, padding⟩ | ⟨op, padding⟩ | ⟨op, padding⟩ | ⟨op, mode, padding⟩ |
      ⟨op, padding⟩⟩
    · simp [decode_of_opcode_add op, mode, padding]
    · simp [decode_of_opcode_and op, mode, padding]
    · simp [decode_of_opcode_not op, padding]
    · rw [decode_of_opcode_jmp op]
      exact padded_of_bad (by rcases padding with h | h <;> simp [h]) _
    · simp [decode_of_opcode_jsr op, mode, padding]
    · simp [decode_of_opcode_trap op, padding]

/-- Settles O6: nine Words, each decoded. -/
theorem sampleWordsDecode : Obligations.SampleWordsDecode := by
  unfold Obligations.SampleWordsDecode
  decide

end Sys2Proof.Machine

/-! What a console instruction can do (43_trap_system.md section 1): GETC, OUT, PUTS, IN, PUTSP, and one of them going
on after it was left unfinished. -/

namespace Sys2Proof.Machine

variable {s t u : State}

/-- What a console instruction can do, from `s` to `t`: it writes no register but R0, and nothing else beside the
console, the unfinished instruction and the run state; it appends shown 7-bit characters and keeps the newline flag true
to them; the run goes on as it was, or it faults with the registers and the unfinished instruction as they were. -/
structure ConsoleEffect (s t : State) : Prop where
  pc        : t.pc = s.pc
  cond      : t.cond = s.cond
  mem       : t.mem = s.mem
  constants : KeepsConstants s t
  regs      : KeepsRegsBut [0] s t
  appended  : s.out <+: t.out
  printed   : (∀ c ∈ s.out, c ≤ 0x7F#8 ∧ c ≠ 0x0D#8) → ∀ c ∈ t.out, c ≤ 0x7F#8 ∧ c ≠ 0x0D#8
  lineStart : s.atLineStart = endsLine s.out → t.atLineStart = endsLine t.out
  ended     : t.run = s.run ∨ ∃ kind, (kind = .addressTooLow ∨ kind = .addressTooHigh ∨ kind = .unimplemented) ∧
    t.run = .faulted kind ∧ t.regs = s.regs ∧ t.inProgress = s.inProgress

/-- The state in which a finished rule ends. -/
def Flow.last (f : Flow) : State := f.state.setRun f.runOf

theorem finish_eq_last (f : Flow) : f.finish = .next f.last := finish_eq f

/-- A string is left unfinished only over a memory in which no Word has a high byte above 0x7F. -/
def EndsStrings (s t : State) : Prop :=
  t.inProgress = s.inProgress ∨ NoStringUnfinished t ∨ ∀ a, (s.word a).extractLsb' 8 8 ≤ 0x7F#8

/-! ### Printing -/

theorem keepsConstants_refl (s : State) : KeepsConstants s s := ⟨rfl, rfl, rfl, rfl, rfl⟩

theorem OnlyPrints.exists_eq (h : OnlyPrints s t) :
    ∃ out line progress, t = { s with out := out, atLineStart := line, inProgress := progress } := ⟨_, _, _, h⟩

theorem OnlyPrints.regs_eq (h : OnlyPrints s t) : t.regs = s.regs := by
  obtain ⟨_, _, _, rfl⟩ := h.exists_eq; rfl

/-- A rule that only prints. -/
theorem Prints.consoleEffect {f : Flow} (h : Prints s f) : ConsoleEffect s f.last := by
  obtain ⟨honly, happended, hprinted, hline, hraised⟩ := h
  cases f with
  | go u =>
    obtain ⟨out, line, progress, rfl⟩ := honly.exists_eq
    exact ⟨rfl, rfl, rfl, keepsConstants_refl s, fun _ _ => rfl, happended, hprinted, hline, .inl rfl⟩
  | raise kind u =>
    obtain ⟨hprogress, hkind⟩ := hraised kind u rfl
    obtain ⟨out, line, progress, rfl⟩ := honly.exists_eq
    exact ⟨rfl, rfl, rfl, keepsConstants_refl s, fun _ _ => rfl, happended, hprinted, hline,
      .inr ⟨kind, hkind, rfl, rfl, hprogress⟩⟩

/-- Printing may come before the rest of a console instruction. -/
theorem Prints.consoleEffect_trans (h : Prints s (.go u)) (hprogress : u.inProgress = s.inProgress)
    (k : ConsoleEffect u t) : ConsoleEffect s t := by
  obtain ⟨honly, happended, hprinted, hline, -⟩ := h
  obtain ⟨out, line, progress, rfl⟩ := honly.exists_eq
  obtain rfl : progress = s.inProgress := hprogress
  exact ⟨k.pc, k.cond, k.mem, k.constants, k.regs, happended.trans k.appended, k.printed ∘ hprinted,
    k.lineStart ∘ hline, k.ended⟩

/-! ### The string loops -/

theorem toNat_low_byte (w : Word) : (w.extractLsb' 0 8).toNat = w.toNat % 256 := by
  rw [BitVec.extractLsb'_toNat, Nat.shiftRight_zero]

theorem toNat_high_byte (w : Word) : (w.extractLsb' 8 8).toNat = w.toNat / 256 := by
  rw [BitVec.extractLsb'_toNat, Nat.shiftRight_eq_div_pow, Nat.mod_eq_of_lt (by omega)]

theorem add_ofNat_toNat_sub (a x : Word) : a + BitVec.ofNat 16 (x - a).toNat = x := by
  rw [BitVec.ofNat_toNat, BitVec.setWidth_eq, BitVec.add_comm, BitVec.sub_add_cancel]

theorem endsStrings_putspLoop (a : Word) (s : State) : EndsStrings s (putspLoop addressSpace a s).last :=
  (putspLoop_unfinished addressSpace a s).imp_right fun h =>
    .inr fun x => add_ofNat_toNat_sub a x ▸ h (x - a).toNat (x - a).isLt

theorem high_byte_le {w : Word} (h : w ≤ 0x007F#16) : w.extractLsb' 8 8 ≤ 0x7F#8 := by
  have hw : w.toNat ≤ 0x7F := BitVec.le_def.mp h
  rw [BitVec.le_def, toNat_high_byte, Nat.div_eq_of_lt (by omega)]
  exact Nat.zero_le _

theorem endsStrings_putsLoop (a : Word) (s : State) : EndsStrings s (putsLoop addressSpace a s).last :=
  (putsLoop_unfinished addressSpace a s).imp_right fun h =>
    .inr fun x => high_byte_le (add_ofNat_toNat_sub a x ▸ h (x - a).toNat (x - a).isLt)

theorem endsStrings_of_andThen_ensureLineStart {loop : State → Flow} (h : ∀ u, EndsStrings u (loop u).last)
    (s : State) :
    EndsStrings s ((ensureLineStart s).andThen loop).last := by
  rw [ensureLineStart_eq, andThen_go]
  split
  · exact h s
  · exact h (s.emit 0x0A#8)

/-! ### Console reads -/

theorem keepsRegsBut_setReg (r : RegId) (v : Word) (s : State) : KeepsRegsBut [r] s (s.setReg r v) :=
  fun _ hq => reg_setReg_other v (List.ne_of_not_mem_cons hq)

theorem consoleEffect_setReg (v : Word) (s : State) : ConsoleEffect s (s.setReg 0 v) :=
  ⟨rfl, rfl, rfl, keepsConstants_refl s, keepsRegsBut_setReg 0 v s, List.prefix_refl _, id, id, .inl rfl⟩

theorem ConsoleEffect.of_setInput {cs : List Byte} (h : ConsoleEffect (s.setInput cs) t) : ConsoleEffect s t :=
  ⟨h.pc, h.cond, h.mem, h.constants, h.regs, h.appended, h.printed, h.lineStart, h.ended⟩

theorem consoleEffect_getcRead (s : State) : ConsoleEffect s (consoleRead .getc getcStore s).last := by
  rcases getcRead_cases s with ⟨-, h⟩ | ⟨c, rest, -, h⟩
  · rw [h]; exact (prints_unfinished _).consoleEffect
  · rw [h]; exact (consoleEffect_setReg _ (s.setInput rest)).of_setInput

/-- A shown character printed first. -/
theorem ConsoleEffect.of_emit {c : Byte} (hc : c ≤ 0x7F#8) (h : ConsoleEffect (s.emit (shown c)) t) :
    ConsoleEffect s t :=
  (printChar_go hc ▸ prints_printChar c : Prints s (.go (s.emit (shown c)))).consoleEffect_trans rfl h

theorem consoleEffect_inStore (c : Byte) (s : State) : ConsoleEffect s (inStore c s).last := by
  rcases inStore_cases c s with ⟨hc, h, -⟩ | ⟨hc, h, -⟩ | ⟨-, h⟩
  · rw [h]
    exact .of_emit hc (.of_emit (c := 0x0A#8) (by decide) (consoleEffect_setReg _ _))
  · rw [h]
    exact .of_emit hc (consoleEffect_setReg _ _)
  · rw [h]
    exact (prints_raise (by simp)).consoleEffect

theorem consoleEffect_inRead (s : State) : ConsoleEffect s (consoleRead .in_ inStore s).last := by
  rcases inRead_cases s with ⟨-, h⟩ | ⟨c, rest, -, h⟩
  · rw [h]; exact (prints_unfinished _).consoleEffect
  · rw [h]; exact (consoleEffect_inStore c (s.setInput rest)).of_setInput

/-- A read leaves nothing unfinished but itself. -/
theorem getcRead_inProgress (s : State) : (consoleRead .getc getcStore s).last.inProgress = s.inProgress ∨
    (consoleRead .getc getcStore s).last.inProgress = some .getc := by
  rcases getcRead_cases s with ⟨-, h⟩ | ⟨c, rest, -, h⟩
  · rw [h]; exact .inr rfl
  · rw [h]; exact .inl rfl

theorem inRead_inProgress (s : State) : (consoleRead .in_ inStore s).last.inProgress = s.inProgress ∨
    (consoleRead .in_ inStore s).last.inProgress = some .in_ := by
  rcases inRead_cases s with ⟨-, h⟩ | ⟨c, rest, -, h⟩
  · rw [h]; exact .inr rfl
  · rw [h]
    rcases inStore_cases c (s.setInput rest) with ⟨-, h, -⟩ | ⟨-, h, -⟩ | ⟨-, h⟩
    all_goals rw [h]; exact .inl rfl

/-! ### The instructions -/

theorem prints_prompt (text : List (BitVec 7)) (s : State) : Prints s (printAll text s) := by
  induction text generalizing s with
  | nil => exact prints_go
  | cons ch rest ih => exact (prints_printChar _).andThen (fun u _ => ih u) fun u h => printChar_keeps_progress h

theorem execGetc_effect (s : State) : ∃ t, execGetc s = .next t ∧ ConsoleEffect s t ∧ EndsStrings s t := by
  refine ⟨_, finish_eq_last _, consoleEffect_getcRead s, ?_⟩
  rcases getcRead_inProgress s with h | h
  · exact .inl h
  · exact .inr (.inl (by simp [h]))

theorem Prints.keepsRegs {f : Flow} (h : Prints s f) : KeepsRegsBut [] s f.last :=
  fun r _ => congrArg (·[r]) h.only.regs_eq

theorem execOut_effect (s : State) :
    ∃ t, execOut s = .next t ∧ ConsoleEffect s t ∧ KeepsRegsBut [] s t ∧ EndsStrings s t := by
  have hprints : Prints s (printChar ((s.reg 0).extractLsb' 0 8) s) := prints_printChar _
  refine ⟨_, finish_eq_last _, hprints.consoleEffect, hprints.keepsRegs, .inl ?_⟩
  unfold printChar
  split <;> rfl

/-- PUTS and PUTSP: a line feed if one is pending, then the loop. -/
theorem stringTrap_effect {loop : State → Flow} (hprints : ∀ u, Prints u (loop u))
    (hends : ∀ u, EndsStrings u (loop u).last) (s : State) :
    ∃ t, ((ensureLineStart s).andThen loop).finish = .next t ∧ ConsoleEffect s t ∧ KeepsRegsBut [] s t ∧
      EndsStrings s t := by
  have h : Prints s ((ensureLineStart s).andThen loop) :=
    prints_ensureLineStart.andThen (fun u _ => hprints u) fun _ h => ensureLineStart_keeps_progress h
  exact ⟨_, finish_eq_last _, h.consoleEffect, h.keepsRegs, endsStrings_of_andThen_ensureLineStart hends s⟩

theorem execPuts_effect (s : State) :
    ∃ t, execPuts s = .next t ∧ ConsoleEffect s t ∧ KeepsRegsBut [] s t ∧ EndsStrings s t :=
  stringTrap_effect (prints_putsLoop _ _) (endsStrings_putsLoop _) s

theorem execPutsp_effect (s : State) :
    ∃ t, execPutsp s = .next t ∧ ConsoleEffect s t ∧ KeepsRegsBut [] s t ∧ EndsStrings s t :=
  stringTrap_effect (prints_putspLoop _ _) (endsStrings_putspLoop _) s

theorem execIn_effect (s : State) : ∃ t, execIn s = .next t ∧ ConsoleEffect s t ∧ EndsStrings s t := by
  have hprints := prints_prompt s.config.inPrompt s
  rw [printAll_eq] at hprints
  rw [execIn_eq]
  refine ⟨_, finish_eq_last _, hprints.consoleEffect_trans rfl (consoleEffect_inRead _), ?_⟩
  rcases inRead_inProgress _ with h | h
  · exact .inl h
  · exact .inr (.inl (by simp [h]))

theorem resume_effect (p : Progress) (s : State) :
    ∃ t, resume p s = .next t ∧ ConsoleEffect (s.setProgress none) t := by
  cases p with
  | getc => exact ⟨_, finish_eq_last _, consoleEffect_getcRead _⟩
  | in_ => exact ⟨_, finish_eq_last _, consoleEffect_inRead _⟩
  | puts a => exact ⟨_, finish_eq_last _, (prints_putsLoop _ _ _).consoleEffect⟩
  | putsp a => exact ⟨_, finish_eq_last _, (prints_putspLoop _ _ _).consoleEffect⟩

end Sys2Proof.Machine

/-! What an instruction can do, said once for all 25 forms. -/

namespace Sys2Proof.Machine

variable {i : Instr} {s t : State}

/-- The instructions that raise an error, and which: a memory check's, or the instruction's own (43_trap_system.md R201
to R203). -/
inductive Raises : Instr → ErrorKind → Prop where
  | tooLow (i : Instr) : Raises i .addressTooLow
  | tooHigh (i : Instr) : Raises i .addressTooHigh
  | trap {v : BitVec 8} (unknown : v ∉ knownTrapVectors) : Raises (.trap v) .malformedTrap
  | rti : Raises .rti .unauthorizedInstr
  | reserved1101 : Raises .reserved1101 .malformedInstr

/-- What `exec i s` can answer, and which of `writesRegs`, `writesCond`, `storesTo`, `usesConsole` allow it. -/
inductive Effect (i : Instr) (s : State) : State → Prop where
  | result (dr : RegId) (v : Word) (hreg : dr ∈ writesRegs i) (hcond : writesCond i = true) :
      Effect i s (writeResult dr v s)
  | register (dr : RegId) (v : Word) (hreg : dr ∈ writesRegs i) (hcond : writesCond i = false) :
      Effect i s (s.setReg dr v)
  | jump (target : Word) (hcond : writesCond i = false) : Effect i s (s.setPc target)
  | link (target : Word) (hreg : 7 ∈ writesRegs i) (hcond : writesCond i = false) :
      Effect i s ((s.setReg 7 s.pc).setPc target)
  | store (a v : Word) (haccess : Accessible a s) (hstore : a ∈ storesTo i s) (hcond : writesCond i = false) :
      Effect i s (s.setWord a v)
  | raise (kind : ErrorKind) (hraises : Raises i kind) : Effect i s (s.setRun (.faulted kind))
  | halt (hhalt : i = .halt ∨ i = .trap 0x25#8) : Effect i s (s.setRun .halted)
  | console (t : State) (heffect : ConsoleEffect s t) (hregs : KeepsRegsBut (writesRegs i) s t)
      (hends : EndsStrings s t) (husage : usesConsole i = true) (hcond : writesCond i = false) : Effect i s t

theorem raises_of_accessError {a : Word} {kind : ErrorKind} (i : Instr) (h : AccessError a kind s) : Raises i kind := by
  rcases h with ⟨rfl, -⟩ | ⟨rfl, -⟩
  · exact .tooLow i
  · exact .tooHigh i

theorem loadInto_effect {dr : RegId} (a : Word) (hreg : dr ∈ writesRegs i) (hcond : writesCond i = true) :
    ∃ t, loadInto dr a s = .next t ∧ Effect i s t := by
  rcases loadInto_cases dr a s with ⟨-, h⟩ | ⟨kind, herror, h⟩
  · exact ⟨_, h, .result dr _ hreg hcond⟩
  · exact ⟨_, h, .raise kind (raises_of_accessError i herror)⟩

theorem memWrite_effect {a : Word} (v : Word) (hstore : a ∈ storesTo i s) (hcond : writesCond i = false) :
    ∃ t, (memWrite a v s).finish = .next t ∧ Effect i s t := by
  rcases memWrite_cases a v s with ⟨haccess, h⟩ | ⟨kind, herror, h⟩
  · exact ⟨_, h, .store a v haccess hstore hcond⟩
  · exact ⟨_, h, .raise kind (raises_of_accessError i herror)⟩

/-- The effect of a console instruction that writes no register, run as `i`: itself or a TRAP. -/
theorem effect_of_console {o : Host.Outcome State Fault Refusal}
    (h : ∃ t, o = .next t ∧ ConsoleEffect s t ∧ KeepsRegsBut [] s t ∧ EndsStrings s t)
    (husage : usesConsole i = true) (hcond : writesCond i = false) : ∃ t, o = .next t ∧ Effect i s t := by
  obtain ⟨t, ht, heffect, hregs, hends⟩ := h
  exact ⟨t, ht, .console t heffect (fun r _ => hregs r (List.not_mem_nil)) hends husage hcond⟩

/-- The effect of a console instruction that writes R0, run as `i`. -/
theorem effect_of_console_r0 {o : Host.Outcome State Fault Refusal}
    (h : ∃ t, o = .next t ∧ ConsoleEffect s t ∧ EndsStrings s t) (hregs : writesRegs i = [0])
    (husage : usesConsole i = true) (hcond : writesCond i = false) : ∃ t, o = .next t ∧ Effect i s t := by
  obtain ⟨t, ht, heffect, hends⟩ := h
  exact ⟨t, ht, .console t heffect (hregs ▸ heffect.regs) hends husage hcond⟩

theorem execTrap_effect (v : BitVec 8) (s : State) : ∃ t, execTrap v s = .next t ∧ Effect (.trap v) s t := by
  rcases execTrap_cases v s with ⟨hunknown, h⟩ | ⟨-, h | h | h | h | h | ⟨rfl, h⟩⟩
  · exact ⟨_, h, .raise _ (.trap hunknown)⟩
  · exact h ▸ effect_of_console_r0 (execGetc_effect s) rfl rfl rfl
  · exact h ▸ effect_of_console (execOut_effect s) rfl rfl
  · exact h ▸ effect_of_console (execPuts_effect s) rfl rfl
  · exact h ▸ effect_of_console_r0 (execIn_effect s) rfl rfl rfl
  · exact h ▸ effect_of_console (execPutsp_effect s) rfl rfl
  · exact ⟨_, h, .halt (.inr rfl)⟩

/-- Every instruction has a next state in every state, with an effect of its own kind. -/
theorem exec_effect (i : Instr) (s : State) : ∃ t, exec i s = .next t ∧ Effect i s t := by
  cases i with
  | addReg dr sr1 sr2 => exact ⟨_, rfl, .result dr _ (List.mem_singleton_self dr) rfl⟩
  | addImm dr sr1 imm5 => exact ⟨_, rfl, .result dr _ (List.mem_singleton_self dr) rfl⟩
  | andReg dr sr1 sr2 => exact ⟨_, rfl, .result dr _ (List.mem_singleton_self dr) rfl⟩
  | andImm dr sr1 imm5 => exact ⟨_, rfl, .result dr _ (List.mem_singleton_self dr) rfl⟩
  | not dr sr => exact ⟨_, rfl, .result dr _ (List.mem_singleton_self dr) rfl⟩
  | br mask offset9 =>
    refine ⟨_, rfl, ?_⟩
    split
    · exact .jump _ rfl
    · exact .jump s.pc rfl
  | jmp baseR => exact ⟨_, rfl, .jump _ rfl⟩
  | jsr offset11 => exact ⟨_, rfl, .link _ (List.mem_singleton_self 7) rfl⟩
  | jsrr baseR => exact ⟨_, rfl, .link _ (List.mem_singleton_self 7) rfl⟩
  | ld dr offset9 => exact loadInto_effect _ (List.mem_singleton_self dr) rfl
  | st sr offset9 => exact memWrite_effect _ (List.mem_singleton_self _) rfl
  | ldi dr offset9 =>
    rcases execLdi_cases dr offset9 s with ⟨-, h⟩ | ⟨kind, herror, h⟩
    · obtain ⟨t, ht, heffect⟩ := loadInto_effect (i := .ldi dr offset9) (s.word (pcRelative s offset9))
        (List.mem_singleton_self dr) rfl
      exact ⟨t, h.trans ht, heffect⟩
    · exact ⟨_, h, .raise kind (raises_of_accessError _ herror)⟩
  | sti sr offset9 =>
    rcases execSti_cases sr offset9 s with ⟨-, h⟩ | ⟨kind, herror, h⟩
    · obtain ⟨t, ht, heffect⟩ := memWrite_effect (i := .sti sr offset9) (s.word (s.reg sr))
        (List.mem_singleton_self _) rfl
      exact ⟨t, h.trans ht, heffect⟩
    · exact ⟨_, h, .raise kind (raises_of_accessError _ herror)⟩
  | lea dr offset9 => exact ⟨_, rfl, .register dr _ (List.mem_singleton_self dr) rfl⟩
  | ldr dr baseR offset6 => exact loadInto_effect _ (List.mem_singleton_self dr) rfl
  | str sr baseR offset6 => exact memWrite_effect _ (List.mem_singleton_self _) rfl
  | trap v => exact execTrap_effect v s
  | getc => exact effect_of_console_r0 (execGetc_effect s) rfl rfl rfl
  | out => exact effect_of_console (execOut_effect s) rfl rfl
  | puts => exact effect_of_console (execPuts_effect s) rfl rfl
  | in_ => exact effect_of_console_r0 (execIn_effect s) rfl rfl rfl
  | putsp => exact effect_of_console (execPutsp_effect s) rfl rfl
  | halt => exact ⟨_, rfl, .halt (.inl rfl)⟩
  | rti => exact ⟨_, rfl, .raise _ .rti⟩
  | reserved1101 => exact ⟨_, rfl, .raise _ .reserved1101⟩

theorem effect_of_exec (h : exec i s = .next t) : Effect i s t := by
  obtain ⟨u, hu, heffect⟩ := exec_effect i s
  rw [hu, Host.Outcome.next.injEq] at h
  exact h ▸ heffect

theorem consoleEffect_of_resume {p : Progress} (h : resume p s = .next t) : ConsoleEffect (s.setProgress none) t := by
  obtain ⟨u, hu, heffect⟩ := resume_effect p s
  rw [hu, Host.Outcome.next.injEq] at h
  exact h ▸ heffect

/-! ### Frames of `exec` -/

theorem fill_of_keepsConstants (h : KeepsConstants s t) : t.fill = s.fill := by
  obtain ⟨-, -, hstart, -, hconfig⟩ := h
  rw [State.fill, State.fill, hstart, hconfig]

/-- What memory reads as depends on its cells, the bounds and the parameters only. -/
theorem word_of_mem (hmem : t.mem = s.mem) (hconstants : KeepsConstants s t) (a : Word) : t.word a = s.word a := by
  rw [State.word, State.word, fill_of_keepsConstants hconstants, hmem]

/-- Settles O16: of the effects only a result writes the flags, and it is a flag writer's. -/
theorem flagsWrittenOnlyBySixInstructions : Obligations.FlagsWrittenOnlyBySixInstructions := by
  intro i s t hexec hflags
  cases effect_of_exec hexec with
  | result dr v hreg hcond => rw [hflags] at hcond; contradiction
  | console _ heffect => exact heffect.cond
  | _ => rfl

/-- Settles O18: each effect that writes a register names it in `writesRegs`. -/
theorem registersWrittenOnlyAsNamed : Obligations.RegistersWrittenOnlyAsNamed := by
  intro i s t hexec r hr
  cases effect_of_exec hexec with
  | result dr v hreg => exact writeResult_reg_other v (ne_of_mem_of_not_mem hreg hr).symm
  | register dr v hreg => exact reg_setReg_other v (ne_of_mem_of_not_mem hreg hr).symm
  | link target hreg => exact reg_setReg_other s.pc (ne_of_mem_of_not_mem hreg hr).symm
  | console _ _ hregs => exact hregs r hr
  | _ => rfl

/-- Settles O31: only a store's effect writes memory, at an address in `storesTo`. -/
theorem memoryWrittenOnlyWhereStored : Obligations.MemoryWrittenOnlyWhereStored := by
  intro i s t hexec a ha
  cases effect_of_exec hexec with
  | store b v _ hstore => exact word_setWord_other v (ne_of_mem_of_not_mem hstore ha).symm
  | console _ heffect => exact word_of_mem heffect.mem heffect.constants a
  | _ => rfl

/-- Settles O45: only a console instruction's effect writes the console. -/
theorem onlyTrapsTouchTheConsole : Obligations.OnlyTrapsTouchTheConsole := by
  intro i s t hexec husage
  cases effect_of_exec hexec with
  | console _ _ _ _ huses => rw [husage] at huses; contradiction
  | _ => exact ⟨rfl, rfl, rfl, rfl⟩

end Sys2Proof.Machine

/-! Invariants of runs: a step is a chain of updates, so what every update keeps holds along every run. -/

namespace Sys2Proof.Machine

variable {i : Instr} {s t : State}

/-- The writes that steps are made of. -/
inductive Update : State → State → Prop where
  | setReg (s : State) (r : RegId) (v : Word) : Update s (s.setReg r v)
  | setPc (s : State) (target : Word) : Update s (s.setPc target)
  | setcc (s : State) (v : Word) : Update s (s.setcc v)
  | setWord (s : State) {a : Word} (v : Word) (haccess : Accessible a s) : Update s (s.setWord a v)
  | setRun (s : State) (r : RunState) : Update s (s.setRun r)
  | setProgress (s : State) (p : Option Progress) : Update s (s.setProgress p)
  | console {s t : State} (heffect : ConsoleEffect s t) : Update s t

/-- Any number of updates. -/
abbrev Updates : State → State → Prop := Relation.ReflTransGen Update

theorem Updates.keep {P : State → Prop} (keep : ∀ u v, Update u v → P u → P v) (h : Updates s t) (hs : P s) : P t := by
  induction h with
  | refl => exact hs
  | tail _ hlast ih => exact keep _ _ hlast ih

theorem Effect.updates (h : Effect i s t) : Updates s t := by
  cases h with
  | result dr v => exact .tail (.single (.setReg s dr v)) (.setcc _ v)
  | register dr v => exact .single (.setReg s dr v)
  | jump target => exact .single (.setPc s target)
  | link target => exact .tail (.single (.setReg s 7 s.pc)) (.setPc _ target)
  | store a v haccess => exact .single (.setWord s v haccess)
  | raise kind => exact .single (.setRun s _)
  | halt => exact .single (.setRun s _)
  | console _ heffect => exact .single (.console heffect)

theorem step_updates (h : step s = .next t) : Updates s t := by
  obtain ⟨-, ⟨p, -, hresume⟩ | ⟨kind, -, -, rfl⟩ | ⟨kind, -, -, -, rfl⟩ | ⟨kind, -, -, -, rfl⟩ | ⟨i, -, -, -, hexec⟩⟩ :=
    step_cases h
  · exact .tail (.single (.setProgress s none)) (.console (consoleEffect_of_resume hresume))
  · exact .single (.setRun s _)
  · exact .tail (.single (.setPc s _)) (.setRun _ _)
  · exact .tail (.single (.setPc s _)) (.setRun _ _)
  · exact .head (.setPc s _) (effect_of_exec hexec).updates

theorem reaches_updates (h : Reaches s t) : Updates s t := by
  induction h with
  | here => exact .refl
  | later hfirst _ ih => exact (step_updates hfirst).trans ih

/-! ### What never changes -/

theorem KeepsConstants.trans {u : State} (h : KeepsConstants s t) (k : KeepsConstants t u) : KeepsConstants s u := by
  obtain ⟨hsp, hfp, hstart, hend, hconfig⟩ := h
  obtain ⟨ksp, kfp, kstart, kend, kconfig⟩ := k
  exact ⟨ksp.trans hsp, kfp.trans hfp, kstart.trans hstart, kend.trans hend, kconfig.trans hconfig⟩

theorem Update.keepsConstants (h : Update s t) : KeepsConstants s t := by
  cases h with
  | console heffect => exact heffect.constants
  | _ => exact keepsConstants_refl s

theorem Updates.keepsConstants (h : Updates s t) : KeepsConstants s t :=
  h.keep (fun _ _ hupdate hs => hs.trans hupdate.keepsConstants) (keepsConstants_refl s)

/-- Settles O56: no update writes a constant. -/
theorem boundsAndParametersAreConstant : Obligations.BoundsAndParametersAreConstant :=
  fun _ _ hreaches => (reaches_updates hreaches).keepsConstants

/-! ### Output -/

theorem Update.out_prefix (h : Update s t) : s.out <+: t.out := by
  cases h with
  | console heffect => exact heffect.appended
  | _ => exact List.prefix_refl s.out

theorem Updates.out_prefix (h : Updates s t) : s.out <+: t.out :=
  h.keep (P := fun u => s.out <+: u.out) (fun _ _ hupdate hs => hs.trans hupdate.out_prefix) (List.prefix_refl s.out)

/-- Settles O44: every update appends to the output or leaves it. -/
theorem outputIsAppendOnly : Obligations.OutputIsAppendOnly :=
  fun _ _ hreaches => (reaches_updates hreaches).out_prefix

/-! ### Memory outside the window -/

theorem Update.word_of_inaccessible {a : Word} (h : Update s t) (ha : ¬ Accessible a s) : t.word a = s.word a := by
  cases h with
  | setWord v haccess => exact word_setWord_other v fun e => ha (e ▸ haccess)
  | console heffect => exact word_of_mem heffect.mem heffect.constants a
  | _ => rfl

theorem accessible_of_keepsConstants {a : Word} (h : KeepsConstants s t) : Accessible a t ↔ Accessible a s := by
  obtain ⟨-, -, hstart, -, hconfig⟩ := h
  rw [Accessible, Accessible, hstart, hconfig]

/-- Settles O32: the only update of memory is at an accessible address, and the window never moves. -/
theorem inaccessibleMemoryNeverChanges : Obligations.InaccessibleMemoryNeverChanges := by
  intro s t a hstep ha
  have hkept : KeepsConstants s t ∧ t.word a = s.word a := by
    refine (step_updates hstep).keep (P := fun u => KeepsConstants s u ∧ u.word a = s.word a) ?_
      ⟨keepsConstants_refl s, rfl⟩
    rintro u v hupdate ⟨hconstants, hword⟩
    have hau : ¬ Accessible a u := fun h => ha ((accessible_of_keepsConstants hconstants).mp h)
    exact ⟨hconstants.trans hupdate.keepsConstants, (hupdate.word_of_inaccessible hau).trans hword⟩
  exact hkept.2

/-! ### Flags -/

theorem Update.oneFlagSet (h : Update s t) (hs : OneFlagSet s) : OneFlagSet t := by
  cases h with
  | setcc v => exact condOf_mem v
  | console heffect => rw [OneFlagSet, heffect.cond]; exact hs
  | _ => exact hs

/-- Settles O54: a completed flag writer leaves `condOf` of its result, and no update clears the flags. -/
theorem oneFlagSetForEver : Obligations.OneFlagSetForEver := by
  constructor
  · intro i s t hwrites hexec hrun hrunning
    cases effect_of_exec hexec with
    | result dr v => exact condOf_mem v
    | raise | halt => exact absurd (hrun.trans hrunning) (by simp)
    | register _ _ _ hcond | jump _ hcond | link _ _ hcond | store _ _ _ _ hcond | console _ _ _ _ _ hcond =>
      rw [hwrites] at hcond; contradiction
  · intro s t hs hreaches
    exact (reaches_updates hreaches).keep (fun _ _ hupdate => hupdate.oneFlagSet) hs

/-! ### The invariant -/

theorem oneFlag_or_none {c : BitVec 3} (h : c ∈ [0b001#3, 0b010#3, 0b100#3]) :
    c ∈ [0b000#3, 0b001#3, 0b010#3, 0b100#3] :=
  List.mem_cons_of_mem _ h

/-- All of the invariant but its clause about the unfinished instruction is kept by every update. -/
theorem Update.inv (h : Update s t) (hs : (s.setProgress none).Inv) : (t.setProgress none).Inv := by
  obtain ⟨hmemory, hcond, hprinted, hline, -, hbounds, hconfig⟩ := hs
  have hnone : (t.setProgress none).inProgress ≠ none → (t.setProgress none).run = .running := fun h => absurd rfl h
  cases h with
  | setWord v haccess => exact ⟨writeCell_wf (BitVec.isLt _) hmemory, hcond, hprinted, hline, hnone, hbounds, hconfig⟩
  | setcc v => exact ⟨hmemory, oneFlag_or_none (condOf_mem v), hprinted, hline, hnone, hbounds, hconfig⟩
  | console heffect =>
    obtain ⟨-, -, hstart, hend, hsame⟩ := heffect.constants
    refine ⟨?_, heffect.cond ▸ hcond, heffect.printed hprinted, heffect.lineStart hline, hnone, ?_, ?_⟩
    · rw [setProgress_fill, setProgress_mem, fill_of_keepsConstants heffect.constants, heffect.mem]; exact hmemory
    · rw [setProgress_start, setProgress_loadEnd, hstart, hend]; exact hbounds
    · rw [setProgress_config, hsame]; exact hconfig
  | _ => exact ⟨hmemory, hcond, hprinted, hline, hnone, hbounds, hconfig⟩

theorem ConsoleEffect.run_of_inProgress (h : ConsoleEffect s t) (hs : s.inProgress = none)
    (hprogress : t.inProgress ≠ none) : t.run = s.run := by
  rcases h.ended with hrun | ⟨-, -, -, -, hsame⟩
  · exact hrun
  · exact absurd (hsame.trans hs) hprogress

theorem Effect.run_of_inProgress (h : Effect i s t) (hs : s.inProgress = none) (hprogress : t.inProgress ≠ none) :
    t.run = s.run := by
  cases h with
  | console _ heffect => exact heffect.run_of_inProgress hs hprogress
  | _ => exact absurd hs hprogress

/-- A step leaves an instruction unfinished only while the engine runs. -/
theorem run_of_inProgress (hstep : step s = .next t) (hprogress : t.inProgress ≠ none) : t.run = .running := by
  obtain ⟨hrun, ⟨p, -, hresume⟩ | ⟨_, hnone, -, rfl⟩ | ⟨_, hnone, -, -, rfl⟩ | ⟨_, hnone, -, -, rfl⟩ |
    ⟨i, hnone, -, -, hexec⟩⟩ := step_cases hstep
  · exact ((consoleEffect_of_resume hresume).run_of_inProgress rfl hprogress).trans hrun
  · exact absurd hnone hprogress
  · exact absurd hnone hprogress
  · exact absurd hnone hprogress
  · exact ((effect_of_exec hexec).run_of_inProgress hnone hprogress).trans hrun

/-- Settles O51: the updates of the step keep all clauses but the one about the unfinished instruction, which the step
as a whole keeps. -/
theorem stepKeepsInvariant : Obligations.StepKeepsInvariant := by
  intro s t hs hstep
  obtain ⟨hmemory, hcond, hprinted, hline, -, hbounds, hconfig⟩ := hs
  obtain ⟨hmemory, hcond, hprinted, hline, -, hbounds, hconfig⟩ := (step_updates hstep).keep
    (P := fun u => (u.setProgress none).Inv) (fun _ _ hupdate => hupdate.inv)
    ⟨hmemory, hcond, hprinted, hline, fun h => absurd rfl h, hbounds, hconfig⟩
  exact ⟨hmemory, hcond, hprinted, hline, run_of_inProgress hstep, hbounds, hconfig⟩

end Sys2Proof.Machine

/-! How a run ends: what a faulting step leaves, where each error and HALT come from, and that a string trap ends within
its step (60_exceptions.md, 10_state.md section 6, 43_trap_system.md section 2). -/

namespace Sys2Proof.Machine

variable {i : Instr} {s t : State} {kind : ErrorKind}

/-! ### The Word of a decoded instruction -/

theorem encode_eq_of_decode {ir : Word} (h : decode ir = .ok i) (hexact : ignoredBits i = 0#16) : encode i = ir := by
  obtain ⟨-, hbits⟩ := decodedWordReencodes ir i h
  rw [hexact] at hbits
  exact BitVec.xor_eq_zero_iff.mp (BitVec.and_allOnes.symm.trans hbits)

/-- A field that a mask covers. -/
theorem field_of_and {ir mask pattern : Word} {lo width : Nat} (h : ir &&& mask = pattern)
    (hcovers : field mask lo width = BitVec.allOnes width) : field ir lo width = field pattern lo width := by
  rw [← h, field, field, BitVec.extractLsb'_and, ← field, ← field, hcovers, BitVec.and_allOnes]

theorem field_of_decode {ir : Word} {lo width : Nat} (h : decode ir = .ok i)
    (hcovers : field (tableRow i).mask lo width = BitVec.allOnes width) :
    field ir lo width = field (tableRow i).pattern lo width := by
  obtain ⟨hrow, -⟩ := decodedWordLiesInItsTableRow ir i h
  exact field_of_and hrow hcovers

theorem unknown_of_decode_trap {ir : Word} {v : BitVec 8} (h : decode ir = .ok (.trap v)) : v ∉ knownTrapVectors := by
  obtain ⟨-, hvector⟩ := decodedWordLiesInItsTableRow ir _ h
  exact hvector v rfl

theorem tableRow_of_usesConsole (huses : usesConsole i = true) :
    field (tableRow i).mask 8 8 = BitVec.allOnes 8 ∧ field (tableRow i).pattern 8 8 = 0xF0#8 := by
  cases i with
  | trap | getc | out | puts | in_ | putsp => simp only [tableRow]; decide
  | _ => cases huses

/-- The console instructions are TRAPs. -/
theorem high_byte_of_usesConsole {ir : Word} (h : decode ir = .ok i) (huses : usesConsole i = true) :
    field ir 8 8 = 0xF0#8 := by
  obtain ⟨hmask, hpattern⟩ := tableRow_of_usesConsole huses
  exact (field_of_decode h hmask).trans hpattern

/-! ### What a fault leaves -/

theorem not_accessible_of_accessError {a : Word} (h : AccessError a kind s) : ¬ Accessible a s := by
  rcases h with ⟨-, hlow⟩ | ⟨-, -, hhigh⟩
  · exact fun haccess => absurd haccess.1 (Nat.not_le.mpr hlow)
  · exact fun haccess => absurd haccess.2 (Nat.not_le.mpr hhigh)

/-- A fault keeps registers, memory, flags and `pc`. -/
structure FaultKeeps (s t : State) : Prop where
  regs : t.regs = s.regs
  mem  : t.mem = s.mem
  cond : t.cond = s.cond
  pc   : t.pc = s.pc

theorem ConsoleEffect.of_fault (h : ConsoleEffect s t) (hrunning : s.run = .running) (hfault : t.run = .faulted kind) :
    FaultKeeps s t ∧ (kind = .addressTooLow ∨ kind = .addressTooHigh ∨ kind = .unimplemented) := by
  rcases h.ended with hrun | ⟨kind', hkind, hrun, hregs, -⟩
  · rw [hrun, hrunning] at hfault; cases hfault
  · obtain rfl : kind' = kind := by rw [hrun] at hfault; exact RunState.faulted.inj hfault
    exact ⟨⟨hregs, h.mem, h.cond, h.pc⟩, hkind⟩

theorem Effect.of_fault (h : Effect i s t) (hrunning : s.run = .running) (hfault : t.run = .faulted kind) :
    FaultKeeps s t ∧ (Raises i kind ∨ kind = .unimplemented) := by
  cases h with
  | raise kind' hraises =>
    obtain rfl : kind' = kind := RunState.faulted.inj hfault
    exact ⟨⟨rfl, rfl, rfl, rfl⟩, .inl hraises⟩
  | halt => cases hfault
  | console _ heffect =>
    obtain ⟨hkeeps, rfl | rfl | rfl⟩ := heffect.of_fault hrunning hfault
    · exact ⟨hkeeps, .inl (.tooLow i)⟩
    · exact ⟨hkeeps, .inl (.tooHigh i)⟩
    · exact ⟨hkeeps, .inr rfl⟩
  | _ => exact absurd (hrunning.symm.trans hfault) (by simp)

/-- Settles O47: the state a fault leaves, by what the step was. -/
theorem faultsArePrecise : Obligations.FaultsArePrecise := by
  intro s t kind hstep hfault
  have hupdates := step_updates hstep
  have hconstants := hupdates.keepsConstants
  have hout := hupdates.out_prefix
  obtain ⟨hrun, ⟨p, hp, hresume⟩ | ⟨_, hnone, herror, rfl⟩ | ⟨_, hnone, haccess, -, rfl⟩ | ⟨_, hnone, haccess, -, rfl⟩ |
    ⟨i, hnone, haccess, -, hexec⟩⟩ := step_cases hstep
  · obtain ⟨⟨hregs, hmem, hcond, hpc⟩, -⟩ := (consoleEffect_of_resume hresume).of_fault hrun hfault
    exact ⟨hregs, hmem, hcond, hconstants, fun h => absurd (hp.symm.trans h) (by simp), fun _ => hpc, hout⟩
  · have hbad : ¬ Accessible s.pc s := not_accessible_of_accessError herror
    exact ⟨rfl, rfl, rfl, hconstants, fun _ => (if_neg hbad).symm, fun h => absurd hnone h, hout⟩
  · exact ⟨rfl, rfl, rfl, hconstants, fun _ => (if_pos haccess).symm, fun h => absurd hnone h, hout⟩
  · exact ⟨rfl, rfl, rfl, hconstants, fun _ => (if_pos haccess).symm, fun h => absurd hnone h, hout⟩
  · obtain ⟨⟨hregs, hmem, hcond, hpc⟩, -⟩ := (effect_of_exec hexec).of_fault hrun hfault
    exact ⟨hregs, hmem, hcond, hconstants, fun _ => hpc.trans (if_pos haccess).symm, fun h => absurd hnone h, hout⟩

/-! ### Where errors come from -/

/-- A fault is a memory check's, a printed character's, the decoder's, or the decoded instruction's own. -/
theorem cause_of_fault (hstep : step s = .next t) (hfault : t.run = .faulted kind) :
    (kind = .addressTooLow ∨ kind = .addressTooHigh ∨ kind = .unimplemented) ∨ decode (s.word s.pc) = .error kind ∨
    ∃ i, decode (s.word s.pc) = .ok i ∧ Raises i kind := by
  obtain ⟨hrun, ⟨p, -, hresume⟩ | ⟨kind', -, herror, rfl⟩ | ⟨kind', -, -, hkind, rfl⟩ | ⟨kind', -, -, hdecode, rfl⟩ |
    ⟨i, -, -, hdecode, hexec⟩⟩ := step_cases hstep
  · exact .inl ((consoleEffect_of_resume hresume).of_fault hrun hfault).2
  · obtain rfl : kind' = kind := RunState.faulted.inj hfault
    exact .inl (accessError_kind herror)
  · obtain rfl : kind' = kind := RunState.faulted.inj hfault
    exact .inl (hkind.imp_right .inl)
  · obtain rfl : kind' = kind := RunState.faulted.inj hfault
    exact .inr (.inl hdecode)
  · obtain ⟨-, hraises | rfl⟩ := (effect_of_exec hexec).of_fault hrun hfault
    · exact .inr (.inr ⟨i, hdecode, hraises⟩)
    · exact .inl (.inr (.inr rfl))

/-- An error that is neither a memory check's nor a printed character's nor the decoder's is an instruction's own. -/
theorem raises_of_fault (hstep : step s = .next t) (hfault : t.run = .faulted kind)
    (hkind : kind ∉ [.addressTooLow, .addressTooHigh, .unimplemented, .malformedPadding]) :
    ∃ i, decode (s.word s.pc) = .ok i ∧ Raises i kind := by
  simp only [List.mem_cons, List.not_mem_nil, or_false, not_or] at hkind
  obtain ⟨hlow, hhigh, hprint, hpadding⟩ := hkind
  rcases cause_of_fault hstep hfault with (h | h | h) | h | h
  · exact absurd h hlow
  · exact absurd h hhigh
  · exact absurd h hprint
  · exact absurd (decode_error_kind h) hpadding
  · exact h

/-- Settles O48: the decoder's error is a bad padding field, and each of the other three is one instruction's own. -/
theorem errorKindsHaveTheirOwnCauses : Obligations.ErrorKindsHaveTheirOwnCauses := by
  intro s t hstep
  refine ⟨fun hfault => ?_, fun hfault => ?_, fun hfault => ?_, fun hfault => ?_⟩
  · rcases cause_of_fault hstep hfault with (h | h | h) | h | ⟨i, -, h⟩
    · cases h
    · cases h
    · cases h
    · exact h
    · cases h
  · obtain ⟨i, hdecode, hraises⟩ := raises_of_fault hstep hfault (by decide)
    cases hraises
    exact field_of_decode hdecode rfl
  · obtain ⟨i, hdecode, hraises⟩ := raises_of_fault hstep hfault (by decide)
    cases hraises with
    | trap hunknown =>
      refine ⟨high_byte_of_usesConsole hdecode rfl, ?_⟩
      rw [← encode_eq_of_decode hdecode rfl, encode, trapFields_low]
      exact hunknown
  · obtain ⟨i, hdecode, hraises⟩ := raises_of_fault hstep hfault (by decide)
    cases hraises
    exact field_of_decode hdecode rfl

/-! ### HALT -/

theorem ConsoleEffect.run_ne_halted (h : ConsoleEffect s t) (hrunning : s.run = .running) : t.run ≠ .halted := by
  rcases h.ended with hrun | ⟨kind, -, hrun, -, -⟩
  · rw [hrun, hrunning]; simp
  · rw [hrun]; simp

/-- Settles O49: of all that a step can do only HALT's own effect ends the run so, and the decoder gives HALT for one
Word. -/
theorem haltOnlyByTrap25 : Obligations.HaltOnlyByTrap25 := by
  intro s t hstep hhalted
  obtain ⟨hrun, ⟨p, -, hresume⟩ | ⟨_, -, -, rfl⟩ | ⟨_, -, -, -, rfl⟩ | ⟨_, -, -, -, rfl⟩ |
    ⟨i, -, haccess, hdecode, hexec⟩⟩ := step_cases hstep
  · exact absurd hhalted ((consoleEffect_of_resume hresume).run_ne_halted hrun)
  · cases hhalted
  · cases hhalted
  · cases hhalted
  · cases effect_of_exec hexec with
    | halt hhalt =>
      rcases hhalt with rfl | rfl
      · exact ⟨(encode_eq_of_decode hdecode rfl).symm, haccess, rfl⟩
      · exact absurd (by decide) (unknown_of_decode_trap hdecode)
    | raise => cases hhalted
    | console _ heffect => exact absurd hhalted (heffect.run_ne_halted hrun)
    | _ => exact absurd (hrun.symm.trans hhalted) (by simp)

/-! ### String traps -/

/-- A held read goes on as a read. -/
theorem noStringUnfinished_of_resume {p : Progress} (hp : some p ∈ [none, some Progress.getc, some .in_])
    (hresume : resume p s = .next t) : NoStringUnfinished t := by
  have hread : p = .getc ∨ p = .in_ := by simpa using hp
  rcases hread with rfl | rfl
  · obtain rfl : (consoleRead .getc getcStore (s.setProgress none)).last = t := by
      simpa [resume, finish_eq_last] using hresume
    rcases getcRead_inProgress (s.setProgress none) with h | h <;> simp [NoStringUnfinished, h]
  · obtain rfl : (consoleRead .in_ inStore (s.setProgress none)).last = t := by
      simpa [resume, finish_eq_last] using hresume
    rcases inRead_inProgress (s.setProgress none) with h | h <;> simp [NoStringUnfinished, h]

/-- Settles O38: a string that all of memory continues would go on over the trap's own Word, whose high byte is 0xF0. -/
theorem stringTrapsEndWithinTheirStep : Obligations.StringTrapsEndWithinTheirStep := by
  intro s t hs hstep
  obtain ⟨hrun, ⟨p, hp, hresume⟩ | ⟨_, -, -, rfl⟩ | ⟨_, -, -, -, rfl⟩ | ⟨_, -, -, -, rfl⟩ |
    ⟨i, -, -, hdecode, hexec⟩⟩ := step_cases hstep
  · exact noStringUnfinished_of_resume (hp ▸ hs) hresume
  · exact hs
  · exact hs
  · exact hs
  · cases effect_of_exec hexec with
    | console _ _ _ hends huses =>
      rcases hends with hsame | hread | hwords
      · rw [NoStringUnfinished, hsame]; exact hs
      · exact hread
      · have hpc := hwords s.pc
        rw [setPc_word, show (s.word s.pc).extractLsb' 8 8 = 0xF0#8 from high_byte_of_usesConsole hdecode huses] at hpc
        exact absurd hpc (by decide)
    | _ => exact hs

end Sys2Proof.Machine

/-! Two runs side by side: `cond` is read by BR only (10_state.md R28), and the inert register-file fields and `END` are
read by nothing (R26, R33). -/

namespace Sys2Proof.Machine

/-- Values for the fields that no rule but BR's reads. -/
structure Unread where
  cond         : BitVec 3
  stackPointer : Word
  framePointer : Word
  loadEnd      : Nat

/-- `s` with other values in those fields. -/
def State.replaced (s : State) (x : Unread) : State :=
  { s with cond := x.cond, stackPointer := x.stackPointer, framePointer := x.framePointer, loadEnd := x.loadEnd }

@[simp] theorem replaced_reg (s : State) (x : Unread) (r : RegId) : (s.replaced x).reg r = s.reg r := rfl
@[simp] theorem replaced_atLineStart (s : State) (x : Unread) : (s.replaced x).atLineStart = s.atLineStart := rfl
@[simp] theorem replaced_input (s : State) (x : Unread) : (s.replaced x).input = s.input := rfl
@[simp] theorem checkAddr_replaced (a : Word) (s : State) (x : Unread) :
    checkAddr a (s.replaced x) = checkAddr a s := rfl
@[simp] theorem memRead_replaced (a : Word) (s : State) (x : Unread) : memRead a (s.replaced x) = memRead a s := rfl
@[simp] theorem pcRelative_replaced {n : Nat} (offset : BitVec n) (s : State) (x : Unread) :
    pcRelative (s.replaced x) offset = pcRelative s offset := rfl

def Flow.replaced (f : Flow) (x : Unread) : Flow :=
  match f with
  | .go s => .go (s.replaced x)
  | .raise kind s => .raise kind (s.replaced x)

/-- A rule that neither reads nor writes those fields. -/
def Blind (rule : State → Flow) : Prop := ∀ x s, rule (s.replaced x) = (rule s).replaced x

/-- A meaning that neither reads nor writes those fields. -/
def BlindMeaning (meaning : State → Host.Outcome State Fault Refusal) : Prop :=
  ∀ x s t, meaning s = .next t → meaning (s.replaced x) = .next (t.replaced x)

variable {s t : State}

/-! ### Rules -/

theorem Blind.andThen {f next : State → Flow} (hf : Blind f) (hnext : Blind next) :
    Blind fun s => (f s).andThen next := by
  intro x s
  simp only [hf x s]
  cases f s with
  | go u => exact hnext x u
  | raise kind u => rfl

theorem Blind.finish {rule : State → Flow} (h : Blind rule) : BlindMeaning fun s => (rule s).finish := by
  intro x s t
  simp only [h x s]
  cases rule s with
  | go u => rintro ⟨⟩; rfl
  | raise kind u => rintro ⟨⟩; rfl

theorem blind_printChar (c : Byte) : Blind (printChar c) := by
  intro x s
  unfold printChar
  split <;> rfl

theorem blind_ensureLineStart : Blind ensureLineStart := by
  intro x s
  rw [ensureLineStart_eq, ensureLineStart_eq, replaced_atLineStart]
  split <;> rfl

theorem blind_printAll (text : List (BitVec 7)) : Blind (printAll text) := by
  induction text with
  | nil => exact fun _ _ => rfl
  | cons ch rest ih => exact (blind_printChar (ch.setWidth 8)).andThen ih

theorem blind_putsLoop (n : Nat) (a : Word) : Blind (putsLoop n a) := by
  induction n generalizing a with
  | zero => exact fun _ _ => rfl
  | succ n ih =>
    intro x s
    rw [putsLoop_succ, putsLoop_succ, memRead_replaced]
    cases memRead a s with
    | error kind => rfl
    | ok w =>
      dsimp only
      split_ifs
      · rfl
      · rfl
      · exact (blind_printChar _).andThen (ih (a + 1)) x s

theorem blind_putspLoop (n : Nat) (a : Word) : Blind (putspLoop n a) := by
  induction n generalizing a with
  | zero => exact fun _ _ => rfl
  | succ n ih =>
    intro x s
    rw [putspLoop_succ, putspLoop_succ, memRead_replaced]
    cases memRead a s with
    | error kind => rfl
    | ok w =>
      dsimp only
      split_ifs
      · rfl
      · exact (blind_printChar _).andThen (fun _ _ => rfl) x s
      · exact (blind_printChar _).andThen ((blind_printChar _).andThen (ih (a + 1))) x s

theorem blind_consoleRead (waiting : Progress) {use : Byte → State → Flow} (huse : ∀ c, Blind (use c)) :
    Blind (consoleRead waiting use) := by
  intro x s
  unfold consoleRead
  rw [replaced_input]
  cases s.input with
  | nil => rfl
  | cons c rest => exact huse c x (s.setInput rest)

theorem blind_getcStore (c : Byte) : Blind (getcStore c) := fun _ _ => rfl

theorem blind_inStore (c : Byte) : Blind (inStore c) :=
  ((blind_printChar c).andThen blind_ensureLineStart).andThen fun _ _ => rfl

theorem blind_memWrite (a v : Word) : Blind (memWrite a v) := by
  intro x s
  rw [memWrite, memWrite, checkAddr_replaced]
  cases checkAddr a s <;> rfl

/-! ### Meanings -/

theorem blind_raise (kind : ErrorKind) : BlindMeaning (raise kind) := by
  rintro x s t ⟨⟩; rfl

theorem blind_execGetc : BlindMeaning execGetc := (blind_consoleRead .getc blind_getcStore).finish

theorem blind_execOut : BlindMeaning execOut := fun x s => (blind_printChar ((s.reg 0).extractLsb' 0 8)).finish x s

theorem blind_execPuts : BlindMeaning execPuts :=
  fun x s => (blind_ensureLineStart.andThen (blind_putsLoop addressSpace (s.reg 0))).finish x s

theorem blind_execIn : BlindMeaning execIn :=
  fun x s => ((blind_printAll s.config.inPrompt).andThen (blind_consoleRead .in_ blind_inStore)).finish x s

theorem blind_execPutsp : BlindMeaning execPutsp :=
  fun x s => (blind_ensureLineStart.andThen (blind_putspLoop addressSpace (s.reg 0))).finish x s

theorem blind_execHalt : BlindMeaning execHalt := by
  rintro x s t ⟨⟩; rfl

theorem blind_execTrap (v : BitVec 8) : BlindMeaning (execTrap v) := by
  intro x s
  unfold execTrap
  split_ifs
  · exact blind_execGetc x s
  · exact blind_execOut x s
  · exact blind_execPuts x s
  · exact blind_execIn x s
  · exact blind_execPutsp x s
  · exact blind_execHalt x s
  · exact blind_raise _ x s

theorem blind_execSti (sr : RegId) (offset9 : BitVec 9) : BlindMeaning (execSti sr offset9) := by
  intro x s t
  rw [execSti, execSti, replaced_reg, memRead_replaced]
  cases memRead (s.reg sr) s with
  | error kind => exact blind_raise kind x s t
  | ok v => exact (blind_memWrite (pcRelative s offset9) v).finish x s t

theorem blind_resume (p : Progress) : BlindMeaning (resume p) := by
  intro x s
  cases p with
  | getc => exact (blind_consoleRead .getc blind_getcStore).finish x (s.setProgress none)
  | in_ => exact (blind_consoleRead .in_ blind_inStore).finish x (s.setProgress none)
  | puts a => exact (blind_putsLoop addressSpace a).finish x (s.setProgress none)
  | putsp a => exact (blind_putspLoop addressSpace a).finish x (s.setProgress none)

/-- An instruction that writes no flags and is no BR. -/
theorem blind_exec {i : Instr} (hcond : writesCond i = false) (hbr : ∀ mask offset9, i ≠ .br mask offset9) :
    BlindMeaning (exec i) := by
  intro x s t h
  cases i with
  | addReg | addImm | andReg | andImm | not | ld | ldi | ldr => cases hcond
  | br mask offset9 => exact absurd rfl (hbr mask offset9)
  | jmp | jsr | jsrr | lea => cases h; rfl
  | st sr offset9 => exact (blind_memWrite (pcRelative s offset9) (s.reg sr)).finish x s t h
  | sti sr offset9 => exact blind_execSti sr offset9 x s t h
  | str sr baseR offset6 => exact (blind_memWrite (baseOffset s baseR offset6) (s.reg sr)).finish x s t h
  | trap v => exact blind_execTrap v x s t h
  | getc => exact blind_execGetc x s t h
  | out => exact blind_execOut x s t h
  | puts => exact blind_execPuts x s t h
  | in_ => exact blind_execIn x s t h
  | putsp => exact blind_execPutsp x s t h
  | halt => exact blind_execHalt x s t h
  | rti => exact blind_raise _ x s t h
  | reserved1101 => exact blind_raise _ x s t h

/-- A flag writer that completes leaves the new flags whatever the old ones were; one that faults keeps them. -/
def ReplacesFlags (meaning : State → Host.Outcome State Fault Refusal) : Prop :=
  ∀ x s t, meaning s = .next t → ∃ c, (c = t.cond ∨ c = x.cond ∧ t.cond = s.cond) ∧
    meaning (s.replaced x) = .next (t.replaced { x with cond := c })

theorem loadInto_replaced (dr : RegId) (a : Word) : ReplacesFlags (loadInto dr a) := by
  intro x s t
  rw [loadInto, loadInto, memRead_replaced]
  cases memRead a s with
  | error kind => rintro ⟨⟩; exact ⟨x.cond, .inr ⟨rfl, rfl⟩, rfl⟩
  | ok v => rintro ⟨⟩; exact ⟨condOf v, .inl rfl, rfl⟩

theorem execLdi_replaced (dr : RegId) (offset9 : BitVec 9) : ReplacesFlags (execLdi dr offset9) := by
  intro x s t
  rw [execLdi, execLdi, pcRelative_replaced, memRead_replaced]
  cases memRead (pcRelative s offset9) s with
  | error kind => rintro ⟨⟩; exact ⟨x.cond, .inr ⟨rfl, rfl⟩, rfl⟩
  | ok p => exact loadInto_replaced dr p x s t

theorem exec_replaced_of_writesCond {i : Instr} (hcond : writesCond i = true) : ReplacesFlags (exec i) := by
  intro x s t h
  cases i with
  | addReg | addImm | andReg | andImm | not => cases h; exact ⟨_, .inl rfl, rfl⟩
  | ld dr offset9 => exact loadInto_replaced dr (pcRelative s offset9) x s t h
  | ldr dr baseR offset6 => exact loadInto_replaced dr (baseOffset s baseR offset6) x s t h
  | ldi dr offset9 => exact execLdi_replaced dr offset9 x s t h
  | _ => cases hcond

theorem exec_replaced {i : Instr} (hbr : ∀ mask offset9, i ≠ .br mask offset9) : ReplacesFlags (exec i) := by
  cases hcond : writesCond i with
  | true => exact exec_replaced_of_writesCond hcond
  | false =>
    intro x s t h
    exact ⟨x.cond, .inr ⟨rfl, flagsWrittenOnlyBySixInstructions i s t h hcond⟩, blind_exec hcond hbr x s t h⟩

/-- Settles O17: with `cond` replaced the instruction ends in the same state but for `cond`. -/
theorem onlyBranchReadsFlags : Obligations.OnlyBranchReadsFlags := by
  intro i s t c hbr hexec
  obtain ⟨c', -, hreplaced⟩ := exec_replaced hbr ⟨c, s.stackPointer, s.framePointer, s.loadEnd⟩ s t hexec
  obtain ⟨hsp, hfp, -, hend, -⟩ := (effect_of_exec hexec).updates.keepsConstants
  refine ⟨_, hreplaced, ?_⟩
  rw [← hsp, ← hfp, ← hend]
  rfl

/-! ### The step -/

/-- `s` with other values of the inert fields and of `END`. -/
def State.withInert (s : State) (sp fp : Word) (loadEnd : Nat) : State :=
  { s with stackPointer := sp, framePointer := fp, loadEnd := loadEnd }

section
variable (sp fp : Word) (loadEnd : Nat)

@[simp] theorem withInert_pc (s : State) : (s.withInert sp fp loadEnd).pc = s.pc := rfl
@[simp] theorem withInert_cond (s : State) : (s.withInert sp fp loadEnd).cond = s.cond := rfl
@[simp] theorem withInert_run (s : State) : (s.withInert sp fp loadEnd).run = s.run := rfl
@[simp] theorem withInert_inProgress (s : State) : (s.withInert sp fp loadEnd).inProgress = s.inProgress := rfl
@[simp] theorem withInert_word (s : State) (a : Word) : (s.withInert sp fp loadEnd).word a = s.word a := rfl

theorem replaced_of_cond {c : BitVec 3} (h : c = t.cond) :
    t.replaced ⟨c, sp, fp, loadEnd⟩ = t.withInert sp fp loadEnd := by
  rw [h]; rfl

theorem exec_withInert {i : Instr} (h : exec i s = .next t) :
    exec i (s.withInert sp fp loadEnd) = .next (t.withInert sp fp loadEnd) := by
  by_cases hbr : ∀ mask offset9, i ≠ .br mask offset9
  · obtain ⟨c, hc, hreplaced⟩ := exec_replaced hbr ⟨s.cond, sp, fp, loadEnd⟩ s t h
    have hcond : c = t.cond := hc.elim id fun hkept => hkept.1.trans hkept.2.symm
    exact hreplaced.trans (congrArg _ (replaced_of_cond sp fp loadEnd hcond))
  · obtain ⟨mask, offset9, rfl⟩ : ∃ mask offset9, i = .br mask offset9 := by simpa using hbr
    cases h
    rw [exec, execBr, withInert_cond]
    split <;> rfl

theorem resume_withInert {p : Progress} (h : resume p s = .next t) :
    resume p (s.withInert sp fp loadEnd) = .next (t.withInert sp fp loadEnd) := by
  have hcond : s.cond = t.cond := (consoleEffect_of_resume h).cond.symm
  exact (blind_resume p ⟨s.cond, sp, fp, loadEnd⟩ s t h).trans (congrArg _ (replaced_of_cond sp fp loadEnd hcond))

theorem raise_withInert {kind : ErrorKind} (h : raise kind s = .next t) :
    raise kind (s.withInert sp fp loadEnd) = .next (t.withInert sp fp loadEnd) := by
  cases h; rfl

/-- What the fetch gives, with other values of the inert fields and of `END`. -/
def Fetched.withInert (f : Fetched) : Fetched :=
  match f with
  | .word ir s => .word ir (s.withInert sp fp loadEnd)
  | .raise kind s => .raise kind (s.withInert sp fp loadEnd)

theorem fetch_withInert (s : State) : fetch (s.withInert sp fp loadEnd) = (fetch s).withInert sp fp loadEnd := by
  have hcheck : checkAddr s.pc (s.withInert sp fp loadEnd) = checkAddr s.pc s := rfl
  have hguard : ∀ ir, sentinelGuard ir (s.withInert sp fp loadEnd) = sentinelGuard ir s := fun _ => rfl
  rw [fetch, fetch, withInert_word, withInert_pc, hcheck, hguard]
  cases checkAddr s.pc s with
  | some kind => rfl
  | none => cases sentinelGuard (s.word s.pc) s <;> rfl

theorem step_withInert (h : step s = .next t) :
    step (s.withInert sp fp loadEnd) = .next (t.withInert sp fp loadEnd) := by
  obtain ⟨hrunning, -⟩ := step_cases h
  rw [step, hrunning] at h
  rw [step, withInert_run, hrunning, withInert_inProgress, fetch_withInert]
  cases hp : s.inProgress with
  | some p => rw [hp] at h; exact resume_withInert sp fp loadEnd h
  | none =>
    rw [hp] at h
    dsimp only at h ⊢
    cases hf : fetch s with
    | raise kind u => rw [hf] at h; exact raise_withInert sp fp loadEnd h
    | word ir u =>
      rw [hf] at h
      dsimp only [Fetched.withInert] at h ⊢
      cases hd : decode ir with
      | error kind => rw [hd] at h; exact raise_withInert sp fp loadEnd h
      | ok i => rw [hd] at h; exact exec_withInert sp fp loadEnd h

end

/-- Settles O55: the step runs through the same cases with the other values. -/
theorem inertFieldsNeverMatter : Obligations.InertFieldsNeverMatter :=
  fun _ _ sp fp loadEnd hstep => step_withInert sp fp loadEnd hstep

end Sys2Proof.Machine

/-! The instruction cycle (30_encoding.md section 5): which case of it runs, and that it always answers. -/

namespace Sys2Proof.Machine

variable {s t : State} {kind : ErrorKind}

/-- Settles O8: a Word that is no sentinel passes the guard. -/
theorem stepRunsDecodedInstruction : Obligations.StepRunsDecodedInstruction :=
  fun _ _ hrun hnew haccess hbelow habove hdecode =>
    step_of_fetch hrun hnew (fetch_of_instruction haccess hbelow habove) hdecode

/-- The fetch at an accessible `pc`: the sentinel guard decides (20_memory.md R57). -/
theorem fetch_of_accessible (haccess : Accessible s.pc s) : fetch s =
    if s.word s.pc = s.config.sentinelBelow then .raise .addressTooLow (s.setPc (s.pc + 1))
    else if s.word s.pc = s.config.sentinelAbove then .raise .addressTooHigh (s.setPc (s.pc + 1))
    else .word (s.word s.pc) (s.setPc (s.pc + 1)) := by
  rw [fetch, checkAddr_none.mpr haccess]
  dsimp only
  rw [sentinelGuard]
  split_ifs <;> rfl

theorem step_of_fetch_raise (hrun : s.run = .running) (hnew : s.inProgress = none) (hfetch : fetch s = .raise kind t) :
    step s = .next (t.setRun (.faulted kind)) := by
  simp only [step, hrun, hnew, hfetch, raise]

theorem step_of_decode_error {ir : Word} (hrun : s.run = .running) (hnew : s.inProgress = none)
    (hfetch : fetch s = .word ir t) (hdecode : decode ir = .error kind) :
    step s = .next (t.setRun (.faulted .malformedPadding)) := by
  obtain rfl := decode_error_kind hdecode
  simp only [step, hrun, hnew, hfetch, hdecode, raise]

/-- Settles O9: the fetch's answer in each case, and what a step makes of it. -/
theorem fetchFaultsBeforeAnyEffect : Obligations.FetchFaultsBeforeAnyEffect := by
  intro s hrun hnew
  refine ⟨fun kind herror => ?_, fun haccess hbelow => ?_, fun haccess habove hdiffer => ?_,
    fun kind haccess hbelow habove hdecode => ?_⟩
  · exact step_of_fetch_raise hrun hnew (fetch_of_accessError herror)
  · exact step_of_fetch_raise hrun hnew ((fetch_of_accessible haccess).trans (if_pos hbelow))
  · have hbelow : s.word s.pc ≠ s.config.sentinelBelow := habove ▸ hdiffer.symm
    exact step_of_fetch_raise hrun hnew (((fetch_of_accessible haccess).trans (if_neg hbelow)).trans (if_pos habove))
  · exact step_of_decode_error hrun hnew (fetch_of_instruction haccess hbelow habove) hdecode

theorem step_of_running (hrun : s.run = .running) : ∃ t, step s = .next t := by
  cases hnew : s.inProgress with
  | some p =>
    obtain ⟨t, ht, -⟩ := resume_effect p s
    exact ⟨t, by simp only [step, hrun, hnew, ht]⟩
  | none =>
    cases hfetch : fetch s with
    | raise kind u => exact ⟨_, step_of_fetch_raise hrun hnew hfetch⟩
    | word ir u =>
      cases hdecode : decode ir with
      | error kind => exact ⟨_, step_of_decode_error hrun hnew hfetch hdecode⟩
      | ok i =>
        obtain ⟨t, ht, -⟩ := exec_effect i u
        exact ⟨t, (step_of_fetch hrun hnew hfetch hdecode).trans ht⟩

/-- Settles O10: every meaning answers a next state, and a terminal state has none. -/
theorem stepsExactlyWhileRunning : Obligations.StepsExactlyWhileRunning := by
  intro s
  refine ⟨⟨?_, step_of_running⟩, fun hrun => by rw [step, hrun], fun kind hrun => by rw [step, hrun]⟩
  rintro ⟨t, hstep⟩
  obtain ⟨hrun, -⟩ := step_cases hstep
  exact hrun

end Sys2Proof.Machine

/-! Registers and the operate instructions (10_state.md section 1, 40_operate.md). -/

namespace Sys2Proof.Machine

variable {s : State} {i : Instr}

/-- Settles O11, by the law of register writes. -/
theorem registerReadsLastWrite : Obligations.RegisterReadsLastWrite := fun _ r q v => reg_setReg r q v

/-- What an instruction that ends in `writeResult` leaves: the result with its flags, and everything else as it was. -/
theorem exists_result {dr : RegId} {v : Word} {P : Word → Prop} (hexec : exec i s = .next (writeResult dr v s))
    (hv : P v) :
    ∃ t, exec i s = .next t ∧ P (t.reg dr) ∧ FlagsShow (t.reg dr) t ∧ KeepsRegsBut [dr] s t ∧ KeepsMemoryBut [] s t ∧
      KeepsConsole s t ∧ KeepsConstants s t ∧ t.pc = s.pc ∧ t.run = s.run := by
  obtain ⟨hreg, hflags, hframe⟩ := writeResult_frame dr v s
  exact ⟨_, hexec, hreg.symm ▸ hv, hreg.symm ▸ hflags, hframe⟩

/-- A sum with a sign-extended field, modulo 65536. -/
theorem toNat_add_sext {n : Nat} (a : Word) (v : BitVec n) :
    ((a + sext v).toNat : Int) = (a.toNat + v.toInt) % 65536 := by
  rw [add_sext, BitVec.toNat_add, BitVec.toNat_ofInt]
  omega

/-- Settles O13: both modes end in `writeResult`, of the sum. -/
theorem addResult : Obligations.AddResult := by
  constructor
  · intro dr sr1 sr2 s
    exact exists_result (P := fun v => v.toNat = _) rfl (BitVec.toNat_add _ _)
  · intro dr sr1 imm5 s
    exact exists_result (P := fun v => (v.toNat : Int) = _) rfl (toNat_add_sext _ imm5)

/-- A bit of a Word ANDed with a sign-extended field. -/
theorem getLsbD_and_sext {n : Nat} (hn : 0 < n) (a : Word) (v : BitVec n) (k : Nat) :
    (a &&& sext v).getLsbD k = (a.getLsbD k && v.getLsbD (min k (n - 1))) := by
  rw [BitVec.getLsbD_and]
  by_cases hk : k < 16
  · rw [BitVec.getLsbD_eq_getElem (x := sext v) hk, getElem_sext]
    split
    · rw [Nat.min_eq_left (by omega)]
    · rw [Nat.min_eq_right (by omega)]
  · rw [BitVec.getLsbD_of_ge a k (by omega), Bool.false_and, Bool.false_and]

/-- Settles O14: both modes end in `writeResult`, of the conjunction. -/
theorem andResult : Obligations.AndResult := by
  constructor
  · intro dr sr1 sr2 s
    exact exists_result (P := fun v => ∀ k, v.getLsbD k = ((s.reg sr1).getLsbD k && (s.reg sr2).getLsbD k)) rfl
      fun _ => BitVec.getLsbD_and
  · intro dr sr1 imm5 s
    exact exists_result (P := fun v => ∀ k, v.getLsbD k = ((s.reg sr1).getLsbD k && imm5.getLsbD (min k 4))) rfl
      (getLsbD_and_sext (by decide) (s.reg sr1) imm5)

/-- Settles O15: NOT ends in `writeResult`, of the complement. -/
theorem notResult : Obligations.NotResult := by
  intro dr sr s
  exact exists_result (P := fun v => v.toNat = _) rfl BitVec.toNat_not

end Sys2Proof.Machine

/-! Control transfer (41_control.md). -/

namespace Sys2Proof.Machine

/-- The mask and the flags share a bit exactly when n and Negative, z and Zero, or p and Positive meet. -/
theorem and_ne_zero_iff (mask cond : BitVec 3) : mask &&& cond ≠ 0#3 ↔
    (mask.getLsbD 2 ∧ cond.getLsbD 2) ∨ (mask.getLsbD 1 ∧ cond.getLsbD 1) ∨ (mask.getLsbD 0 ∧ cond.getLsbD 0) := by
  revert mask cond; decide

/-- Settles O19: the test of BR is `and_ne_zero_iff`. -/
theorem branchTakenExactlyWhenMaskMeetsFlags : Obligations.BranchTakenExactlyWhenMaskMeetsFlags := by
  intro mask offset9 s
  exact congrArg Host.Outcome.next (if_congr (and_ne_zero_iff mask s.cond) rfl rfl)

/-- Settles O21: the meaning of JMP is this state. -/
theorem jumpLoadsProgramCounter : Obligations.JumpLoadsProgramCounter := fun _ _ => rfl

/-- Settles O22: R7 by the law of register writes, the rest as the meaning writes it. -/
theorem jsrLinksThenJumps : Obligations.JsrLinksThenJumps := by
  intro offset11 s
  exact ⟨_, rfl, reg_setReg_same 7 s.pc, rfl, rfl, keepsRegsBut_setReg 7 s.pc s, fun _ _ => rfl, ⟨rfl, rfl, rfl, rfl⟩,
    keepsConstants_refl s, rfl⟩

/-- Settles O23: the base register is read from the state with R7 saved. -/
theorem jsrrSavesBeforeReadingBase : Obligations.JsrrSavesBeforeReadingBase := by
  intro baseR s
  exact ⟨_, rfl, reg_setReg_same 7 s.pc, reg_setReg 7 baseR s.pc, rfl, keepsRegsBut_setReg 7 s.pc s, fun _ _ => rfl,
    ⟨rfl, rfl, rfl, rfl⟩, keepsConstants_refl s, rfl⟩

end Sys2Proof.Machine

/-! Loads and stores (42_load_store.md). -/

namespace Sys2Proof.Machine

variable {s : State} {i : Instr} {a v : Word} {dr : RegId}

/-- Settles O24: both forms add a sign-extended field. -/
theorem effectiveAddresses : Obligations.EffectiveAddresses :=
  fun s offset9 baseR offset6 => ⟨toNat_add_sext s.pc offset9, toNat_add_sext (s.reg baseR) offset6⟩

/-- An instruction that ends in a load from an accessible address. -/
theorem exists_load (hexec : exec i s = loadInto dr a s) (haccess : Accessible a s) :
    ∃ t, exec i s = .next t ∧ t.reg dr = s.word a ∧ FlagsShow (t.reg dr) t ∧ KeepsRegsBut [dr] s t ∧
      KeepsMemoryBut [] s t ∧ KeepsConsole s t ∧ KeepsConstants s t ∧ t.pc = s.pc ∧ t.run = s.run :=
  exists_result (P := fun v => v = s.word a) (hexec.trans (loadInto_next haccess)) rfl

/-- Settles O25: both loads are `loadInto` of their address. -/
theorem loadsReadOneWord : Obligations.LoadsReadOneWord :=
  fun _ _ _ _ _ => ⟨exists_load rfl, fun _ => loadInto_raise, exists_load rfl, fun _ => loadInto_raise⟩

theorem execLdi_of_accessible {offset9 : BitVec 9} (h : Accessible (pcRelative s offset9) s) :
    execLdi dr offset9 s = loadInto dr (s.word (pcRelative s offset9)) s := by
  simp only [execLdi, memRead_ok h]

theorem execLdi_of_accessError {offset9 : BitVec 9} {kind : ErrorKind} (h : AccessError (pcRelative s offset9) kind s) :
    execLdi dr offset9 s = .next (s.setRun (.faulted kind)) := by
  simp only [execLdi, memRead_error h, raise]

/-- Settles O26: the pointer's check, then `loadInto` of the Word there. -/
theorem loadIndirect : Obligations.LoadIndirect := by
  intro dr offset9 s
  refine ⟨fun hpointer hdatum => exists_load (execLdi_of_accessible hpointer) hdatum, fun _ => execLdi_of_accessError,
    fun kind hpointer herror => ?_⟩
  exact (execLdi_of_accessible hpointer).trans (loadInto_raise herror)

theorem finish_memWrite_of_accessible (h : Accessible a s) : (memWrite a v s).finish = .next (s.setWord a v) := by
  rw [memWrite_go h, finish_go]

theorem finish_memWrite_of_accessError {kind : ErrorKind} (h : AccessError a kind s) :
    (memWrite a v s).finish = .next (s.setRun (.faulted kind)) := by
  rw [memWrite_raise h, finish_raise]

/-- An instruction that ends in a store to an accessible address. -/
theorem exists_store (hexec : exec i s = (memWrite a v s).finish) (haccess : Accessible a s) :
    ∃ t, exec i s = .next t ∧ t.word a = v ∧ KeepsMemoryBut [a] s t ∧ { t with mem := s.mem } = s :=
  ⟨_, hexec.trans (finish_memWrite_of_accessible haccess), word_setWord_same a v, keepsMemoryBut_setWord a v s,
    setWord_with_mem a v s⟩

/-- Settles O27: both stores are `memWrite` of their address. -/
theorem storesWriteOneWord : Obligations.StoresWriteOneWord :=
  fun _ _ _ _ _ => ⟨exists_store rfl, fun _ => finish_memWrite_of_accessError, exists_store rfl,
    fun _ => finish_memWrite_of_accessError⟩

theorem execSti_of_accessible {sr : RegId} {offset9 : BitVec 9} (h : Accessible (s.reg sr) s) :
    execSti sr offset9 s = (memWrite (pcRelative s offset9) (s.word (s.reg sr)) s).finish := by
  simp only [execSti, memRead_ok h]

theorem execSti_of_accessError {sr : RegId} {offset9 : BitVec 9} {kind : ErrorKind}
    (h : AccessError (s.reg sr) kind s) :
    execSti sr offset9 s = .next (s.setRun (.faulted kind)) := by
  simp only [execSti, memRead_error h, raise]

/-- Settles O28: the pointer's check, then `memWrite` of the Word there. -/
theorem storeIndirectCopies : Obligations.StoreIndirectCopies := by
  intro sr offset9 s
  refine ⟨fun hpointer htarget => exists_store (execSti_of_accessible hpointer) htarget,
    fun _ => execSti_of_accessError, fun kind hpointer herror => ?_⟩
  exact (execSti_of_accessible hpointer).trans (finish_memWrite_of_accessError herror)

/-- Settles O29: LEA writes one register and nothing else. -/
theorem loadEffectiveAddress : Obligations.LoadEffectiveAddress := by
  intro dr offset9 s
  refine ⟨_, rfl, ?_, rfl, keepsRegsBut_setReg dr _ s, fun _ _ => rfl, ⟨rfl, rfl, rfl, rfl⟩, keepsConstants_refl s,
    rfl, rfl⟩
  rw [reg_setReg_same]
  exact toNat_add_sext s.pc offset9

/-- The fetch of an address just stored to reads the stored Word. -/
theorem fetch_after_store (haccess : Accessible a s) : fetch { s.setWord a v with pc := a } =
    if v = s.config.sentinelBelow then .raise .addressTooLow { s.setWord a v with pc := a + 1 }
    else if v = s.config.sentinelAbove then .raise .addressTooHigh { s.setWord a v with pc := a + 1 }
    else .word v { s.setWord a v with pc := a + 1 } := by
  have hword : ((s.setWord a v).setPc a).word a = v :=
    (setPc_word _ _ _).trans (word_setWord_same a v)
  have hfetch := fetch_of_accessible (s := (s.setWord a v).setPc a) haccess
  rw [setPc_pc, hword] at hfetch
  exact hfetch

/-- Settles O33: a store to an accessible address, then the fetch there. -/
theorem storedWordIsFetchedNext : Obligations.StoredWordIsFetchedNext := by
  intro sr baseR offset9 offset6 s nextFetchReads
  refine ⟨fun haccess => ?_, fun haccess => ?_, fun hpointer haccess => ?_⟩
  · exact ⟨_, finish_memWrite_of_accessible haccess, fetch_after_store haccess⟩
  · exact ⟨_, finish_memWrite_of_accessible haccess, fetch_after_store haccess⟩
  · exact ⟨_, (execSti_of_accessible hpointer).trans (finish_memWrite_of_accessible haccess), fetch_after_store haccess⟩

end Sys2Proof.Machine

/-! Printing (43_trap_system.md section 1): characters, texts, and the strings of PUTS and PUTSP. -/

namespace Sys2Proof.Machine

variable {s t : State} {a : Word} {kind : ErrorKind}

/-! ### Bytes and characters -/

theorem beq_newline (c : Byte) : (c == 0x0A#8) = decide (c.toNat = 0x0A) := by
  revert c; decide

theorem toNat_shown (c : Byte) : (shown c).toNat = if c.toNat = 0x0D then 0x0A else c.toNat := by
  revert c; decide

theorem shown_eq_newline_iff (c : Byte) : shown c = 0x0A#8 ↔ c = 0x0A#8 ∨ c = 0x0D#8 := by
  revert c; decide

/-- Settles O35: OUT is `printChar` of the low byte. -/
theorem outPrintsLowByte : Obligations.OutPrintsLowByte := by
  intro s
  constructor
  · intro hlow
    rw [← toNat_low_byte] at hlow ⊢
    have hgo := printChar_go (s := s) (BitVec.le_def.mpr hlow)
    refine ⟨shown ((s.reg 0).extractLsb' 0 8), toNat_shown _, ?_⟩
    rw [exec, execOut, hgo, ← beq_newline]
    rfl
  · intro hhigh
    rw [← toNat_low_byte] at hhigh
    have hraise := printChar_raise (s := s) (BitVec.lt_def.mpr hhigh)
    rw [exec, execOut, hraise]
    rfl

/-! ### Texts -/

/-- `s` after a text of 7-bit characters was printed. -/
def State.showing (s : State) (text : List (BitVec 7)) : State :=
  { s with out := s.out ++ shownText text,
           atLineStart := if text = [] then s.atLineStart else endsLine (s.out ++ shownText text) }

theorem printAll_eq_showing (text : List (BitVec 7)) (s : State) : printAll text s = .go (s.showing text) :=
  printAll_eq text s

theorem andThen_assoc (f : Flow) (g h : State → Flow) :
    (f.andThen g).andThen h = f.andThen fun s => (g s).andThen h := by
  cases f <;> rfl

theorem printAll_append (text more : List (BitVec 7)) (s : State) :
    printAll (text ++ more) s = (printAll text s).andThen (printAll more) := by
  induction text generalizing s with
  | nil => rfl
  | cons ch rest ih =>
    rw [List.cons_append, printAll, printAll, andThen_assoc]
    exact congrArg _ (funext ih)

theorem showing_append (text more : List (BitVec 7)) (s : State) :
    s.showing (text ++ more) = (s.showing text).showing more := by
  have h := printAll_append text more s
  rw [printAll_eq_showing, printAll_eq_showing, andThen_go, printAll_eq_showing] at h
  exact Flow.go.inj h

/-- `s` after PUTS or PUTSP has printed a text: first the line feed that is due, then the text. -/
def State.showingString (s : State) (text : List (BitVec 7)) : State :=
  { s with out := s.out ++ pendingNewline s ++ shownText text,
           atLineStart := if pendingNewline s ++ shownText text = [] then s.atLineStart
                          else endsLine (s.out ++ pendingNewline s ++ shownText text) }

@[simp] theorem showingString_word (text : List (BitVec 7)) (a : Word) : (s.showingString text).word a = s.word a := rfl

theorem shownText_eq_nil {text : List (BitVec 7)} : shownText text = [] ↔ text = [] := List.map_eq_nil_iff

theorem ensureLineStart_eq_showingString (s : State) : ensureLineStart s = .go (s.showingString []) := by
  rw [ensureLineStart_eq]
  cases h : s.atLineStart with
  | true =>
    refine congrArg Flow.go ?_
    rw [State.showingString, pendingNewline, if_pos h]
    simp [shownText]
  | false => simp [State.showingString, pendingNewline, h, shownText, State.emit, endsLine_append]

@[simp] theorem shownText_append (text more : List (BitVec 7)) :
    shownText (text ++ more) = shownText text ++ shownText more :=
  List.map_append

theorem showing_showingString (text more : List (BitVec 7)) (s : State) :
    (s.showingString text).showing more = s.showingString (text ++ more) := by
  by_cases hmore : more = []
  · subst hmore
    simp [State.showing, State.showingString, shownText]
  · simp [State.showing, State.showingString, hmore, shownText_eq_nil]

theorem printChar_eq_showing (ch : BitVec 7) (s : State) : printChar (ch.setWidth 8) s = .go (s.showing [ch]) := by
  have h7 : ∀ ch : BitVec 7, ch.setWidth 8 ≤ 0x7F#8 := by decide
  rw [printChar_go (h7 ch)]
  simp [State.showing, State.emit, shownText, endsLine_append]

/-! ### PUTS -/

theorem zext_char {ch : BitVec 7} (h : ch ≠ 0#7) :
    zext ch ≠ 0x0000#16 ∧ ¬ 0x007F#16 < zext ch ∧ (zext ch).extractLsb' 0 8 = ch.setWidth 8 := by
  revert ch; decide

theorem putsLoop_char {ch : BitVec 7} (n : Nat) (haccess : Accessible a s) (hword : s.word a = zext ch)
    (hch : ch ≠ 0#7) :
    putsLoop (n + 1) a s = putsLoop n (a + 1) (s.showing [ch]) := by
  obtain ⟨hzero, hbad, hlow⟩ := zext_char hch
  rw [putsLoop_succ, memRead_ok haccess, hword]
  simp only [if_neg hzero, if_neg hbad, hlow, printChar_eq_showing, andThen_go]

/-- What cells hold depends on memory and the window only. -/
theorem HoldsText.congr {text : List (BitVec 7)} (haccess : ∀ b, Accessible b s → Accessible b t)
    (hword : ∀ b, t.word b = s.word b) (h : HoldsText s a text) : HoldsText t a text := by
  induction text generalizing a with
  | nil => trivial
  | cons ch rest ih =>
    obtain ⟨hfirst, hfirstWord, hch, hrest⟩ := h
    exact ⟨haccess a hfirst, (hword a).trans hfirstWord, hch, ih hrest⟩

/-- The loop over the cells of a text. -/
theorem putsLoop_text {text : List (BitVec 7)} (n : Nat) (h : HoldsText s a text) :
    putsLoop (text.length + n) a s = putsLoop n (a + BitVec.ofNat 16 text.length) (s.showing text) := by
  induction text generalizing a s with
  | nil => simp [State.showing, shownText]
  | cons ch rest ih =>
    obtain ⟨haccess, hword, hch, hrest⟩ := h
    have hshown : HoldsText (s.showing [ch]) (a + 1) rest := .congr (s := s) (fun _ => id) (fun _ => rfl) hrest
    rw [List.length_cons, Nat.add_right_comm, putsLoop_char _ haccess hword hch, ih hshown, add_one_ofNat,
      ← showing_append, List.singleton_append]

theorem putsLoop_terminator (n : Nat) (haccess : Accessible a s) (hword : s.word a = 0#16) :
    putsLoop (n + 1) a s = .go s := by
  rw [putsLoop_succ, memRead_ok haccess, hword]
  rfl

theorem putsLoop_bad_word (n : Nat) (haccess : Accessible a s) (hword : 0x7F < (s.word a).toNat) :
    putsLoop (n + 1) a s = .raise .unimplemented s := by
  have hnonzero : s.word a ≠ 0x0000#16 := fun h => by simp [h] at hword
  rw [putsLoop_succ, memRead_ok haccess]
  simp only [if_neg hnonzero, if_pos (BitVec.lt_def.mpr hword : 0x007F#16 < s.word a)]

theorem putsLoop_inaccessible (n : Nat) (herror : AccessError a kind s) : putsLoop (n + 1) a s = .raise kind s := by
  rw [putsLoop_succ, memRead_error herror]

/-- PUTS comes to the cell behind its text with that cell's turn left. -/
theorem execPuts_text {text : List (BitVec 7)} (h : HoldsText s (s.reg 0) text) (hlength : text.length < 65536) :
    ∃ n, execPuts s = (putsLoop (n + 1) (s.reg 0 + BitVec.ofNat 16 text.length) (s.showingString text)).finish := by
  obtain ⟨n, hn⟩ : ∃ n, 65536 = text.length + (n + 1) := ⟨65535 - text.length, by omega⟩
  have htext : HoldsText (s.showingString []) (s.reg 0) text :=
    .congr (s := s) (fun _ => id) (fun _ => rfl) h
  refine ⟨n, ?_⟩
  rw [execPuts, ensureLineStart_eq_showingString, andThen_go, addressSpace, hn, putsLoop_text (n + 1) htext,
    showing_showingString, List.nil_append]

/-- Settles O36: the loop runs over the text, and the cell behind it ends the string. -/
theorem putsPrintsTheString : Obligations.PutsPrintsTheString := by
  intro s text htext hlength last printed shownState
  obtain ⟨n, hexec⟩ := execPuts_text htext hlength
  refine ⟨fun haccess hword => ?_, fun haccess hword => ?_, fun kind herror => ?_⟩
  · exact hexec.trans (congrArg Flow.finish (putsLoop_terminator (s := s.showingString text) n haccess hword))
  · exact hexec.trans (congrArg Flow.finish (putsLoop_bad_word (s := s.showingString text) n haccess hword))
  · exact hexec.trans (congrArg Flow.finish (putsLoop_inaccessible (s := s.showingString text) n herror))

/-! ### PUTSP -/

theorem packed_char (ch : BitVec 7) : ch ≠ 0#7 → ch.setWidth 8 ≠ 0x00#8 := by
  revert ch; decide

theorem putspLoop_pair {lo hi : BitVec 7} (n : Nat) (haccess : Accessible a s)
    (hword : s.word a = (hi.setWidth 8 ++ lo.setWidth 8 : BitVec 16)) (hlo : lo ≠ 0#7) (hhi : hi ≠ 0#7) :
    putspLoop (n + 1) a s = putspLoop n (a + 1) (s.showing [lo, hi]) := by
  rw [putspLoop_succ, memRead_ok haccess, hword]
  simp only [BitVec.extractLsb'_append_eq_right, BitVec.extractLsb'_append_eq_left, if_neg (packed_char lo hlo),
    if_neg (packed_char hi hhi), printChar_eq_showing, andThen_go, ← showing_append, List.singleton_append]

theorem HoldsPairs.congr {pairs : List (BitVec 7 × BitVec 7)} (haccess : ∀ b, Accessible b s → Accessible b t)
    (hword : ∀ b, t.word b = s.word b) (h : HoldsPairs s a pairs) : HoldsPairs t a pairs := by
  induction pairs generalizing a with
  | nil => trivial
  | cons pair rest ih =>
    obtain ⟨hfirst, hfirstWord, hlo, hhi, hrest⟩ := h
    exact ⟨haccess a hfirst, (hword a).trans hfirstWord, hlo, hhi, ih hrest⟩

/-- The loop over the cells of packed pairs. -/
theorem putspLoop_pairs {pairs : List (BitVec 7 × BitVec 7)} (n : Nat) (h : HoldsPairs s a pairs) :
    putspLoop (pairs.length + n) a s =
      putspLoop n (a + BitVec.ofNat 16 pairs.length) (s.showing (unpacked pairs)) := by
  induction pairs generalizing a s with
  | nil => simp [State.showing, shownText, unpacked]
  | cons pair rest ih =>
    obtain ⟨haccess, hword, hlo, hhi, hrest⟩ := h
    have hshown : HoldsPairs (s.showing [pair.1, pair.2]) (a + 1) rest :=
      .congr (s := s) (fun _ => id) (fun _ => rfl) hrest
    rw [List.length_cons, Nat.add_right_comm, putspLoop_pair _ haccess hword hlo hhi, ih hshown, add_one_ofNat,
      ← showing_append]
    rfl

theorem low_byte_eq {w : Word} {c : Byte} (h : w.toNat % 256 = c.toNat) : w.extractLsb' 0 8 = c :=
  BitVec.eq_of_toNat_eq ((toNat_low_byte w).trans h)

theorem putspLoop_terminator (n : Nat) (haccess : Accessible a s) (hlow : (s.word a).toNat % 256 = 0) :
    putspLoop (n + 1) a s = .go s := by
  rw [putspLoop_succ, memRead_ok haccess]
  simp only [if_pos (low_byte_eq (c := 0x00#8) hlow)]

theorem putspLoop_bad_low (n : Nat) (haccess : Accessible a s) (hlow : 0x7F < (s.word a).toNat % 256) :
    putspLoop (n + 1) a s = .raise .unimplemented s := by
  rw [← toNat_low_byte] at hlow
  have hnonzero : (s.word a).extractLsb' 0 8 ≠ 0x00#8 := fun h => by simp [h] at hlow
  rw [putspLoop_succ, memRead_ok haccess]
  simp only [if_neg hnonzero, printChar_raise (BitVec.lt_def.mpr hlow), andThen_raise]

/-- A last cell with one character: its high byte decides. -/
theorem putspLoop_low_char {ch : BitVec 7} (n : Nat) (haccess : Accessible a s) (hch : ch ≠ 0#7)
    (hlow : (s.word a).toNat % 256 = ch.toNat) : putspLoop (n + 1) a s =
      if (s.word a).extractLsb' 8 8 = 0x00#8 then .go (s.showing [ch])
      else (printChar ((s.word a).extractLsb' 8 8) (s.showing [ch])).andThen (putspLoop n (a + 1)) := by
  have hbyte : (s.word a).extractLsb' 0 8 = ch.setWidth 8 := low_byte_eq (hlow.trans (by simp; omega))
  rw [putspLoop_succ, memRead_ok haccess]
  simp only [hbyte, if_neg (packed_char ch hch), printChar_eq_showing, andThen_go]

theorem putspLoop_inaccessible (n : Nat) (herror : AccessError a kind s) : putspLoop (n + 1) a s = .raise kind s := by
  rw [putspLoop_succ, memRead_error herror]

/-- PUTSP comes to the cell behind its pairs with that cell's turn left. -/
theorem execPutsp_pairs {pairs : List (BitVec 7 × BitVec 7)} (h : HoldsPairs s (s.reg 0) pairs)
    (hlength : pairs.length < 65536) : ∃ n, execPutsp s =
      (putspLoop (n + 1) (s.reg 0 + BitVec.ofNat 16 pairs.length) (s.showingString (unpacked pairs))).finish := by
  obtain ⟨n, hn⟩ : ∃ n, 65536 = pairs.length + (n + 1) := ⟨65535 - pairs.length, by omega⟩
  have hpairs : HoldsPairs (s.showingString []) (s.reg 0) pairs :=
    .congr (s := s) (fun _ => id) (fun _ => rfl) h
  refine ⟨n, ?_⟩
  rw [execPutsp, ensureLineStart_eq_showingString, andThen_go, addressSpace, hn, putspLoop_pairs (n + 1) hpairs,
    showing_showingString, List.nil_append]

/-- Settles O37: the loop runs over the pairs, and the cell behind them ends the string. -/
theorem putspPrintsTheString : Obligations.PutspPrintsTheString := by
  intro s pairs hpairs hlength last showing
  obtain ⟨n, hexec⟩ := execPutsp_pairs hpairs hlength
  refine ⟨fun haccess hlow => ?_, fun haccess hlow => ?_, fun ch hch haccess hlow => ?_, fun kind herror => ?_⟩
  · exact hexec.trans
      (congrArg Flow.finish (putspLoop_terminator (s := s.showingString (unpacked pairs)) n haccess hlow))
  · exact hexec.trans (congrArg Flow.finish (putspLoop_bad_low (s := s.showingString (unpacked pairs)) n haccess hlow))
  · have hchar := putspLoop_low_char (s := s.showingString (unpacked pairs)) n haccess hch hlow
    rw [showing_showingString, showingString_word] at hchar
    constructor
    · intro hhigh
      rw [← toNat_high_byte] at hhigh
      have hzero : (s.word last).extractLsb' 8 8 = 0x00#8 := BitVec.eq_of_toNat_eq hhigh
      exact hexec.trans (congrArg Flow.finish (hchar.trans (if_pos hzero)))
    · intro hhigh
      rw [← toNat_high_byte] at hhigh
      have hnonzero : (s.word last).extractLsb' 8 8 ≠ 0x00#8 := fun h => by simp [h] at hhigh
      have hraise := printChar_raise (s := s.showingString (unpacked pairs ++ [ch])) (BitVec.lt_def.mpr hhigh)
      have hend := hchar.trans (if_neg hnonzero)
      rw [hraise, andThen_raise] at hend
      exact hexec.trans (congrArg Flow.finish hend)
  · exact hexec.trans (congrArg Flow.finish (putspLoop_inaccessible (s := s.showingString (unpacked pairs)) n herror))

end Sys2Proof.Machine

/-! The console reads of GETC and IN, answered at once, held, or answered later (43_trap_system.md R191, R195, R198),
and the other traps' dispatch. -/

namespace Sys2Proof.Machine

variable {s t : State} {waiting : Progress} {use : Byte → State → Flow}

theorem consoleRead_of_answer {c : Byte} {rest : List Byte} (h : s.input = c :: rest) :
    consoleRead waiting use s = use c (s.setInput rest) := by
  rw [consoleRead, h]

theorem consoleRead_of_none (h : s.input = []) : consoleRead waiting use s = .go (s.setProgress (some waiting)) := by
  rw [consoleRead, h]

/-! ### GETC and IN -/

/-- Settles O34: the read's two cases. -/
theorem getcStoresTheAnswer : Obligations.GetcStoresTheAnswer := by
  intro s
  constructor
  · intro c rest hinput
    refine ⟨_, congrArg Flow.finish (consoleRead_of_answer hinput), ?_, rfl, keepsRegsBut_setReg 0 _ _, fun _ _ => rfl,
      rfl, rfl, rfl, rfl, keepsConstants_refl s, rfl, rfl⟩
    rw [reg_setReg_same]
    exact toNat_zext (by decide) c
  · intro hinput
    exact congrArg Flow.finish (consoleRead_of_none hinput)

theorem execIn_eq_showing (s : State) : execIn s = (consoleRead .in_ inStore (s.showing s.config.inPrompt)).finish :=
  execIn_eq s

theorem exec_in_of_answer {c : Byte} {rest : List Byte} (h : s.input = c :: rest) :
    exec .in_ s = (inStore c ((s.showing s.config.inPrompt).setInput rest)).finish :=
  (execIn_eq_showing s).trans (congrArg Flow.finish (consoleRead_of_answer h))

theorem shown_of_ne_newline {c : Byte} (h : shown c ≠ 0x0A#8) : ¬ (c = 0x0A#8 ∨ c = 0x0D#8) ∧ shown c = c := by
  have hc : ¬ (c = 0x0A#8 ∨ c = 0x0D#8) := fun hc => h ((shown_eq_newline_iff c).mpr hc)
  exact ⟨hc, if_neg fun hcr => hc (.inr hcr)⟩

/-- Settles O39: the prompt, then the read's three outcomes; the echo decides whether a line feed follows. -/
theorem inPromptsReadsAndEchoes : Obligations.InPromptsReadsAndEchoes := by
  intro s prompted promptedFlag
  refine ⟨fun c rest hinput h7 => ?_, fun c rest hinput h8 => ?_, fun hinput => ?_⟩
  · rw [exec_in_of_answer hinput]
    have hr0 : ∀ u : State, ((u.setReg 0 (zext c)).reg 0).toNat = c.toNat := fun u => by
      rw [reg_setReg_same]; exact toNat_zext (by decide) c
    rcases inStore_cases c ((s.showing s.config.inPrompt).setInput rest) with ⟨-, h, hecho⟩ | ⟨-, h, hecho⟩ | ⟨h8, -⟩
    · obtain ⟨hc, hshown⟩ := shown_of_ne_newline hecho
      refine ⟨_, congrArg Flow.finish h, hr0 _, rfl, ?_, rfl, keepsRegsBut_setReg 0 _ _, fun _ _ => rfl, rfl, rfl,
        keepsConstants_refl s, rfl, rfl⟩
      rw [if_neg hc, setReg_out, emit_out, emit_out, hshown, List.append_assoc]
      rfl
    · refine ⟨_, congrArg Flow.finish h, hr0 _, rfl, ?_, ?_, keepsRegsBut_setReg 0 _ _, fun _ _ => rfl, rfl, rfl,
        keepsConstants_refl s, rfl, rfl⟩
      · rw [if_pos ((shown_eq_newline_iff c).mp hecho), setReg_out, emit_out, hecho]
        rfl
      · rw [setReg_atLineStart, emit_atLineStart, hecho]
        rfl
    · exact absurd (BitVec.lt_def.mp h8) (Nat.not_lt.mpr h7)
  · rw [exec_in_of_answer hinput, inStore, printChar_raise (BitVec.lt_def.mpr h8)]
    rfl
  · exact (execIn_eq_showing s).trans
      (congrArg Flow.finish (consoleRead_of_none (s := s.showing s.config.inPrompt) hinput))

/-! ### A read that waits -/

theorem step_of_inProgress {p : Progress} (hrun : s.run = .running) (hprogress : s.inProgress = some p) :
    step s = resume p s := by
  simp only [step, hrun, hprogress]

theorem setProgress_of_eq {p : Option Progress} (h : s.inProgress = p) : s.setProgress p = s := by
  rw [← h]; rfl

theorem step_of_held (h : Held s) : step s = .next s := by
  obtain ⟨hrun, hprogress | hprogress, hinput⟩ := h
  all_goals
    rw [step_of_inProgress hrun hprogress, resume, consoleRead_of_none (s := s.setProgress none) hinput]
    exact congrArg Host.Outcome.next (setProgress_of_eq hprogress)

theorem getc_answered_later (c : Byte) (rest : List Byte) (hrun : s.run = .running) (hnew : s.inProgress = none) :
    step ((s.setProgress (some .getc)).supply (c :: rest)) = exec .getc (s.supply (c :: rest)) := by
  have hstate : ((s.setProgress (some .getc)).supply (c :: rest)).setProgress none = s.supply (c :: rest) :=
    setProgress_of_eq (s := s.supply (c :: rest)) hnew
  refine Eq.trans (step_of_inProgress (p := .getc) ?_ ?_) ?_
  · exact hrun
  · rfl
  · rw [resume, hstate]; rfl

theorem in_answered_later (c : Byte) (rest : List Byte) (hrun : s.run = .running) (hnew : s.inProgress = none) :
    step (((s.showing s.config.inPrompt).setProgress (some .in_)).supply (c :: rest)) =
      exec .in_ (s.supply (c :: rest)) := by
  have hstate : (((s.showing s.config.inPrompt).setProgress (some .in_)).supply (c :: rest)).setProgress none =
      (s.supply (c :: rest)).showing s.config.inPrompt :=
    setProgress_of_eq (s := (s.supply (c :: rest)).showing s.config.inPrompt) hnew
  refine Eq.trans (step_of_inProgress (p := .in_) ?_ ?_) ?_
  · exact hrun
  · rfl
  · rw [resume, hstate]; exact (execIn_eq_showing (s.supply (c :: rest))).symm

/-- Settles O43: the held state differs from the one before by the wait alone, and the answered step takes it away. -/
theorem heldReadEndsAsIfAnsweredAtOnce : Obligations.HeldReadEndsAsIfAnsweredAtOnce := by
  refine ⟨fun s => step_of_held, ?_⟩
  intro i s t c rest hi hrun hnew hinput hexec
  have hread : i = .getc ∨ i = .in_ := by simpa using hi
  rcases hread with rfl | rfl
  · rw [exec, execGetc, consoleRead_of_none hinput] at hexec
    obtain rfl := Host.Outcome.next.inj hexec
    exact ⟨⟨hrun, .inl rfl, hinput⟩, getc_answered_later c rest hrun hnew⟩
  · rw [exec, execIn_eq_showing, consoleRead_of_none (s := s.showing s.config.inPrompt) hinput] at hexec
    obtain rfl := Host.Outcome.next.inj hexec
    exact ⟨⟨hrun, .inr rfl, hinput⟩, in_answered_later c rest hrun hnew⟩

/-! ### The other traps -/

/-- Settles O40: HALT writes the run state only, and the status code reads it. -/
theorem haltEndsTheRun : Obligations.HaltEndsTheRun := by
  intro s
  refine ⟨rfl, ?_⟩
  rintro t ⟨⟩
  exact ⟨rfl, rfl⟩

theorem mem_knownTrapVectors_iff (v : BitVec 8) : v ∈ knownTrapVectors ↔ 0x20 ≤ v.toNat ∧ v.toNat ≤ 0x25 := by
  revert v; decide

/-- Settles O41: an unknown vector raises; each of the six runs the meaning its Word decodes to. -/
theorem trapDispatchesOnItsVector : Obligations.TrapDispatchesOnItsVector := by
  intro v s
  constructor
  · intro hout
    have hunknown : v ∉ knownTrapVectors := by rw [mem_knownTrapVectors_iff]; omega
    rcases execTrap_cases v s with ⟨-, h⟩ | ⟨hknown, -⟩
    · exact h
    · exact absurd hknown hunknown
  · intro hlow hhigh
    have hknown := (mem_knownTrapVectors_iff v).mpr ⟨hlow, hhigh⟩
    simp only [knownTrapVectors, List.mem_cons, List.not_mem_nil, or_false] at hknown
    rcases hknown with rfl | rfl | rfl | rfl | rfl | rfl
    · exact ⟨.getc, by decide, by decide, rfl⟩
    · exact ⟨.out, by decide, by decide, rfl⟩
    · exact ⟨.puts, by decide, by decide, rfl⟩
    · exact ⟨.in_, by decide, by decide, rfl⟩
    · exact ⟨.putsp, by decide, by decide, rfl⟩
    · exact ⟨.halt, by decide, by decide, rfl⟩

/-- Settles O42: both meanings are `raise`. -/
theorem rtiAndReservedOpcodeAlwaysRaise : Obligations.RtiAndReservedOpcodeAlwaysRaise := fun _ => ⟨rfl, rfl⟩

end Sys2Proof.Machine

/-! Status codes (60_exceptions.md R233). -/

namespace Sys2Proof.Machine

/-- The engine's error kinds, in the order of `ErrorCodes.all`. -/
def engineKinds : List ErrorKind :=
  [.addressTooLow, .addressTooHigh, .malformedPadding, .malformedInstr, .malformedTrap, .unauthorizedInstr,
   .unimplemented]

theorem mem_engineKinds (kind : ErrorKind) : kind ∈ engineKinds := by
  cases kind <;> decide

/-- The codes are the loader's four and then the engine's. -/
theorem errorCodes_all_eq (c : ErrorCodes) :
    c.all = [c.fileOpen, c.fileRead, c.fileTooShort, c.fileTooLong] ++ engineKinds.map c.engine := rfl

variable {c : ErrorCodes}

theorem engine_injective (h : c.WellFormed) : Function.Injective c.engine := by
  obtain ⟨hnodup, -⟩ := h
  rw [errorCodes_all_eq] at hnodup
  exact fun k k' => List.inj_on_of_nodup_map hnodup.of_append_right (mem_engineKinds k) (mem_engineKinds k')

theorem engine_ne_zero (h : c.WellFormed) (kind : ErrorKind) : c.engine kind ≠ 0 := by
  obtain ⟨-, hzero⟩ := h
  rw [errorCodes_all_eq] at hzero
  exact fun hcode => hzero (List.mem_append_right _ (hcode ▸ List.mem_map_of_mem (mem_engineKinds kind)))

/-- The status code of a run state: what `State.statusCode` reads. -/
def RunState.code (c : ErrorCodes) : RunState → Option Nat
  | .running => none
  | .halted => some 0
  | .faulted kind => some (c.engine kind)

theorem statusCode_eq (s : State) : s.statusCode = s.run.code s.config.errorCode := by
  unfold State.statusCode
  cases s.run <;> rfl

theorem code_injective (h : c.WellFormed) : Function.Injective (RunState.code c) := by
  intro r r' hcode
  cases r with
  | running => cases r' with
    | running => rfl
    | halted | faulted => cases hcode
  | halted => cases r' with
    | running => cases hcode
    | halted => rfl
    | faulted kind => exact absurd (Option.some.inj hcode).symm (engine_ne_zero h kind)
  | faulted kind => cases r' with
    | running => cases hcode
    | halted => exact absurd (Option.some.inj hcode) (engine_ne_zero h kind)
    | faulted kind' => exact congrArg _ (engine_injective h (Option.some.inj hcode))

/-- Settles O50: the code tells the run states apart. -/
theorem statusCodeIdentifiesTheEnd : Obligations.StatusCodeIdentifiesTheEnd := by
  rintro s t ⟨-, hcodes⟩ hconfig
  have hinj := code_injective hcodes
  rw [statusCode_eq, statusCode_eq, hconfig]
  exact ⟨hinj.eq_iff (b := .halted), hinj.eq_iff (b := .running), hinj.eq_iff⟩

end Sys2Proof.Machine

/-! Reset (10_state.md section 7, 70_reset_and_hazards.md). -/

namespace Sys2Proof.Machine

/-- Settles O52: a loaded image is in canonical form; the other clauses are reset values. -/
theorem bootMeetsInvariant : Obligations.BootMeetsInvariant := by
  intro config start image hconfig hfits
  have hend : start.toNat + image.length ≤ addressSpace := by
    have := start.isLt
    unfold addressSpace; omega
  refine ⟨imageCells_wf hend, List.mem_cons_self, ?_, rfl, fun h => absurd rfl h, ⟨Nat.le_add_right _ _, hend⟩, hconfig⟩
  intro c hc
  cases hc

/-- Settles O53: the model's reset state is the one of an empty payload. -/
theorem resetMeetsInvariant : Obligations.ResetMeetsInvariant :=
  bootMeetsInvariant Config.conventional 0x3000#16 [] (by decide) (Nat.zero_le _)

/-- Settles O58: the first fetch is at `START`, which holds the above-sentinel. -/
theorem emptyPayloadFaultsAtOnce : Obligations.EmptyPayloadFaultsAtOnce := by
  rintro config start ⟨hdiffer, -⟩
  have hword : (State.boot config start []).word start = config.sentinelAbove := by
    rw [word_boot, dif_neg (by simp), unlistedWord, if_neg (Nat.lt_irrefl _)]
  rcases access_cases start (State.boot config start []) with haccess | ⟨kind, herror⟩
  · have hfetch := fetch_of_accessible (s := State.boot config start []) haccess
    have hbelow : (State.boot config start []).word start ≠ config.sentinelBelow := hword ▸ hdiffer.symm
    exact ⟨_, step_of_fetch_raise rfl rfl (hfetch.trans ((if_neg hbelow).trans (if_pos hword))), rfl⟩
  · rcases herror with ⟨-, hlow⟩ | ⟨rfl, hhigh⟩
    · exact absurd hlow (Nat.lt_irrefl _)
    · exact ⟨_, step_of_fetch_raise rfl rfl (fetch_of_accessError (.inr ⟨rfl, hhigh⟩)), rfl⟩

/-- Settles O59: the reset state's fields as written; the registers are eight zeros. -/
theorem resetValues : Obligations.ResetValues := by
  intro config start image s
  refine ⟨fun r => ?_, rfl, rfl, rfl, rfl, rfl, rfl, rfl, rfl, rfl, rfl, rfl, rfl⟩
  exact Vector.getElem_replicate _

end Sys2Proof.Machine
